-- ==== Sys2Proof/Word.lean ====
section
/-! DEFINITION. The bit-vector widths of the machine (spec/10_state.md, spec/30_encoding.md rule R90).
Everything here is a width and nothing else; every helper that a test could show wrong stands in Decode.lean
or under Machine/. -/

namespace Sys2Proof

/-- An 8-bit value: a general register, a timer, a memory cell, a frame-buffer byte. -/
abbrev Byte := BitVec 8

/-- A 16-bit value: an instruction word, `pc`, `I`, a stack entry, the keypad bitmap. -/
abbrev Word := BitVec 16

/-- A register field `x` or `y` of an instruction word; all 16 values name a register (rule R91). -/
abbrev RegIdx := BitVec 4

end Sys2Proof
end

