-- ==== Sys2Proof/Config.lean ====
section
/-! DEFINITION. What is fixed for the machine (spec/00_scope.md rules R5, R6) and the one free value,
the random byte of `Cxnn` (spec/42_immediate_index_random.md rule R153). -/

namespace Sys2Proof.Config

/-- Size of main memory in bytes (rule R5): the addresses are 0 to 4095. -/
def memorySize : Nat := 4096

/-- `FONT_BASE` (rule R6; 90_conflicts.md C1). -/
def fontBase : Nat := 80

/-- Where a program is loaded and where `pc` starts (rules R5, R282). -/
def programBase : Nat := 512

/-- The longest program that fits above `programBase` (70_reset_and_hazards.md rule R283). -/
def maxProgram : Nat := 3584

/-- `UNKNOWN_OPCODE_POLICY` (rule R6): what a reserved word does. -/
inductive UnknownOpcodePolicy where
  /-- Rule R96: the cycle ends with `UnknownOpcode`. -/
  | surface
  /-- Rule R97: the word is a no-op. -/
  | ignore
  deriving DecidableEq, Repr

/-- The value this hardware takes (rule R6, 92_eei_decisions.md D4). UNVERIFIED, log entry 7: safe. -/
def unknownOpcodePolicy : UnknownOpcodePolicy := .surface

/-- The `k`-th random draw (rule R153: "one fresh 8-bit draw", "under no law"). It has no body: nothing can be
proved of its value, so a claim about `Cxnn` holds for every byte. DESIGN CHOICE, log entry 4: safe. -/
opaque randomByte : Nat → Byte

/-- The customary glyphs of 93_implementation_defined.md GK2, five bytes a glyph. They are the value that
`State.reset` takes for the open parameter `FONT_DATA`. PRESUMED, log entry 2: unsafe. -/
def customaryGlyphs : List (List Byte) :=
  [[0xF0, 0x90, 0x90, 0x90, 0xF0], [0x20, 0x60, 0x20, 0x20, 0x70],
   [0xF0, 0x10, 0xF0, 0x80, 0xF0], [0xF0, 0x10, 0xF0, 0x10, 0xF0]] ++
  [[0x90, 0x90, 0xF0, 0x10, 0x10], [0xF0, 0x80, 0xF0, 0x10, 0xF0],
   [0xF0, 0x80, 0xF0, 0x90, 0xF0], [0xF0, 0x10, 0x20, 0x40, 0x40]] ++
  [[0xF0, 0x90, 0xF0, 0x90, 0xF0], [0xF0, 0x90, 0xF0, 0x10, 0xF0],
   [0xF0, 0x90, 0xF0, 0x90, 0x90], [0xE0, 0x90, 0xE0, 0x90, 0xE0]] ++
  [[0xF0, 0x80, 0x80, 0x80, 0xF0], [0xE0, 0x90, 0x90, 0x90, 0xE0],
   [0xF0, 0x80, 0xF0, 0x80, 0xF0], [0xF0, 0x80, 0xF0, 0x80, 0x80]]

/-- The 80 bytes of `customaryGlyphs` in address order. -/
def customaryFont : List Byte := customaryGlyphs.flatten

end Sys2Proof.Config
end

