-- ==== Sys2Proof/Machine/State.lean ====
section
/-! DEFINITION. The machine state as plain data (spec/10_state.md rules R20 to R35), the reasons a step can stop
(spec/60_exceptions.md rule R240) and the state after reset (rule R43). -/

namespace Sys2Proof.Machine

/-- Main memory (rule R34): address and byte pairs in one canonical form, addresses strictly rising and no entry equal to
what an unlisted address reads as. DESIGN CHOICE, log entry 19: safe. -/
abbrev Memory := List Host.Cell

/-- The frame buffer (rule R35): 32 rows, row 0 at the top, of 8 bytes, byte 0 at the left. -/
abbrev FrameBuffer := Vector (Vector Byte 8) 32

/-- MachineState: every field of 10_state.md, and the model's own counter of random draws. -/
structure State where
  /-- `V[0]` to `V[15]` (rules R20, R21). -/
  v : Vector Byte 16
  /-- The program counter (rule R22). -/
  pc : Word
  /-- The index register `I` (rule R25). -/
  index : Word
  /-- The delay timer `DT` (rule R26). -/
  dt : Byte
  /-- The sound timer `ST` (rule R27). -/
  st : Byte
  /-- The stack count, 0 to 16 (rule R28). DEDUCED, log entry 18: safe. -/
  sp : Fin 17
  /-- The return stack, a register file outside memory (rule R33). -/
  stack : Vector Word 16
  /-- The keypad bitmap `KEYS` (rule R29). -/
  keys : Word
  /-- The frame buffer `FB` (rule R35). -/
  fb : FrameBuffer
  /-- The dirty flag (rule R31). -/
  needsRedraw : Bool
  /-- The halt flag, read by the orchestration loop only (rule R32). -/
  running : Bool
  /-- Construction-time quirk flag: the shifts read `V[x]` (rule R30). -/
  quirkShift : Bool
  /-- Construction-time quirk flag: the bulk copies leave `I` unchanged (rule R30). -/
  quirkLoad : Bool
  /-- Main memory (rule R34). -/
  mem : Memory
  /-- The model's own field: how many random draws were taken (42_immediate_index_random.md rule R153).
  DESIGN CHOICE, log entry 4: safe. -/
  draws : Nat
  deriving DecidableEq, Repr

/-- The errors of a cycle (rule R240) with the value each records and, last, the state the faulting cycle leaves
(rule R246). A model takes every one of them as the end of the run (rule R249): log entries 6, 8 and 9. -/
inductive Fault where
  /-- Code 1. Raised by a reserved word, `5xyn` and `9xyn` with `n` nonzero and the unlisted `Exnn` and `Fxnn`
  (30_encoding.md rule R96); `w` is the word. Safe: the machine stops where another choice would continue. -/
  | unknownOpcode (w : Word) (left : State)
  /-- Code 2. Raised by `2nnn` when 16 return addresses are held (rule R242). Safe. -/
  | stackOverflow (left : State)
  /-- Code 3. Raised by `00EE` when none is held (rule R243). Safe. -/
  | stackUnderflow (left : State)
  /-- Code 4. Raised by the fetch, `Dxyn`, `Fx33`, `Fx55` and `Fx65` when the highest address they need is above 4095
  (rules R241, R244); `addr` is the lowest offending address. Safe. -/
  | memoryOutOfRange (addr : Nat) (left : State)
  /-- Code 5. Raised by `Ex9E` and `ExA1` when `V[x]` is above 15 (45_keypad_timer.md rule R206); `k` is `V[x]`. Safe. -/
  | keyIndexOutOfRange (k : Byte) (left : State)
  deriving DecidableEq, Repr

/-- Why an instruction has no meaning in this model. -/
inductive Refusal where
  /-- Answered by an arm of `exec` whose instruction has no meaning yet; no arm is left that does. Safe. -/
  | notModelled (mnemonic : String)
  deriving DecidableEq, Repr

/-- The machine right after construction (rules R43, R281): all zero but `pc` = 512 and `running` = true. The quirk flags
are construction arguments, false here (DESIGN CHOICE, log entry 1: unsafe); memory lists nothing, so no program is
loaded (DESIGN CHOICE, log entry 3: safe) and the font region reads as the customary glyphs (PRESUMED, log entry 2: unsafe);
`construct` gives every other choice of these arguments. -/
def State.reset : State where
  v := Vector.replicate 16 0
  pc := 512
  index := 0
  dt := 0
  st := 0
  sp := 0
  stack := Vector.replicate 16 0
  keys := 0
  fb := Vector.replicate 32 (Vector.replicate 8 0)
  needsRedraw := false
  running := true
  quirkShift := false
  quirkLoad := false
  mem := []
  draws := 0

end Sys2Proof.Machine
end

