-- ==== Sys2Proof/Machine/Ops.lean ====
section
/-! DEFINITION. The named operations over the state: registers, memory, return stack, frame buffer, program counter, and
raising an error (spec/00_scope.md rule R8, spec/20_memory.md, spec/60_exceptions.md). -/

namespace Sys2Proof.Machine

/-! ## Errors (60_exceptions.md) -/

/-- `raise E(info)` (rule R8), the one way an instruction ends with an error: nothing of the current state changes and it
is the state left (rule R246). The state an instruction sees already has `pc` advanced (30_encoding.md rule R100). -/
def raise (f : State → Fault) (s : State) : Host.Outcome State Fault Refusal := .fault (f s)

/-- The code of an error (rule R240). UNVERIFIED (the spec's decision D2), log entry 8: unsafe. -/
def errorCode : Fault → Nat
  | .unknownOpcode _ _ => 1
  | .stackOverflow _ => 2
  | .stackUnderflow _ => 3
  | .memoryOutOfRange _ _ => 4
  | .keyIndexOutOfRange _ _ => 5

/-- The value an error records, as a number (rule R240). UNVERIFIED (D2), log entry 8: unsafe. -/
def recordedValue : Fault → Option Nat
  | .unknownOpcode w _ => some w.toNat
  | .stackOverflow _ => none
  | .stackUnderflow _ => none
  | .memoryOutOfRange addr _ => some addr
  | .keyIndexOutOfRange k _ => some k.toNat

/-- The state a faulting cycle leaves (rule R246). UNVERIFIED (D3), log entry 9: unsafe. -/
def stateLeft : Fault → State
  | .unknownOpcode _ left => left
  | .stackOverflow left => left
  | .stackUnderflow left => left
  | .memoryOutOfRange _ left => left
  | .keyIndexOutOfRange _ left => left

/-- A reserved word under a policy: an error (30_encoding.md rule R96) or a no-op (rule R97). UNVERIFIED (D4, D5), log
entry 7: safe. -/
def unknownOpcodeUnder (policy : Config.UnknownOpcodePolicy) (w : Word) (s : State) :
    Host.Outcome State Fault Refusal :=
  match policy with
  | .surface => raise (.unknownOpcode w) s
  | .ignore => .next s

/-! ## General registers (10_state.md rule R20) -/

/-- `V[x]`. -/
def readV (s : State) (x : RegIdx) : Byte := s.v[x.toNat]'(x.isLt)

/-- `V[x] <- b`. -/
def writeV (s : State) (x : RegIdx) (b : Byte) : State :=
  { s with v := s.v.set x.toNat b x.isLt }

/-- `V[i] <- b0; V[i+1] <- b1; …`, in ascending order. -/
def writeRegs (s : State) (i : Nat) : List Byte → State
  | [] => s
  | b :: bs => writeRegs (writeV s (BitVec.ofNat 4 i) b) (i + 1) bs

/-- The registers `V[0]` to `V[n-1]`, in ascending order. -/
def readRegs (s : State) (n : Nat) : List Byte :=
  (List.range n).map (fun i => readV s (BitVec.ofNat 4 i))

/-! ## Program counter (10_state.md rules R22 to R24) -/

/-- `pc <- pc + 2`: the fetch's advance, and again a skip (41_skip.md). In every state a run reaches the sum does not wrap
(rule R24). DEDUCED, log entry 21: safe. -/
def advancePc (s : State) : State := { s with pc := s.pc + 2 }

/-- `pc <- pc - 2` (45_keypad_timer.md rule R203). -/
def rewindPc (s : State) : State := { s with pc := s.pc - 2 }

/-- `pc <- t`. -/
def setPc (s : State) (t : Word) : State := { s with pc := t }

/-- `I <- a`. -/
def setIndex (s : State) (a : Word) : State := { s with index := a }

/-! ## Main memory (20_memory.md) -/

/-- What an address that memory does not list reads as: the reset image without a program (70_reset_and_hazards.md
rule R283), the font at 80 to 159 and 0 elsewhere. PRESUMED, log entry 2: unsafe. -/
def unlistedByte (a : Nat) : Byte :=
  if Config.fontBase ≤ a ∧ a < Config.fontBase + 80 then Config.customaryFont.getD (a - Config.fontBase) 0 else 0

/-- The byte at an address. Callers check the range first (rule R63); above 4095 nothing is listed. -/
def memRead : Memory → Nat → Byte
  | [], a => unlistedByte a
  | (k, b) :: m, a => if a = k then b else memRead m a

/-- Put a byte into the list, keeping the canonical form. -/
def memPut : Memory → Nat → Byte → Memory
  | [], a, b => if b = unlistedByte a then [] else [(a, b)]
  | (k, c) :: m, a, b =>
    if a < k then
      if b = unlistedByte a then (k, c) :: m else (a, b) :: (k, c) :: m
    else if a = k then
      if b = unlistedByte a then m else (a, b) :: m
    else (k, c) :: memPut m a b

/-- Store a byte; above 4095 nothing is written (rule R8). Callers check the range first (rule R63). -/
def memWrite (m : Memory) (a : Nat) (b : Byte) : Memory :=
  if a < Config.memorySize then memPut m a b else m

/-- Store bytes at ascending addresses (rule R62). -/
def storeBytes (m : Memory) (a : Nat) : List Byte → Memory
  | [] => m
  | b :: bs => storeBytes (memWrite m a b) (a + 1) bs

/-- Read `n` bytes at ascending addresses (rule R62). -/
def loadBytes (m : Memory) (a n : Nat) : List Byte :=
  (List.range n).map (fun i => memRead m (a + i))

/-- The canonical form from an address upward: strictly rising, inside the 4 KB, no entry that an unlisted address
would read as. -/
def canonicalFrom (lo : Nat) : Memory → Bool
  | [] => true
  | (k, b) :: m =>
    decide (lo ≤ k) && decide (k < Config.memorySize) && (b != unlistedByte k) && canonicalFrom (k + 1) m

/-- The memory is in canonical form. -/
def Memory.wf (m : Memory) : Bool := canonicalFrom 0 m

/-- The range check of rule R63: an access to `count` bytes from `first` goes on only when the highest address is at most
4095, and otherwise raises the lowest offending address (rule R240). No bytes, no check (44_draw.md rule R187).
UNVERIFIED (D22, D26), log entry 16: unsafe. -/
def withRange (s : State) (first count : Nat) (k : Host.Outcome State Fault Refusal) :
    Host.Outcome State Fault Refusal :=
  if 1 ≤ count ∧ 4095 < first + count - 1 then raise (.memoryOutOfRange (max first 4096)) s else k

/-! ## Return stack (10_state.md rule R33) -/

/-- `stack[i]`. No instruction asks for an index above 15 (log entry 19). -/
def stackRead (s : State) (i : Nat) : Word := if h : i < 16 then s.stack[i] else 0

/-- `stack[i] <- a`. -/
def stackWrite (s : State) (i : Nat) (a : Word) : State :=
  { s with stack := s.stack.setIfInBounds i a }

/-- `sp <- n`, for `n` at most 16. -/
def setSp (s : State) (n : Nat) : State := { s with sp := Fin.ofNat 17 n }

/-! ## Frame buffer (10_state.md rule R35) -/

/-- `FB[r][b]`; 0 outside the buffer, where no instruction looks (log entry 19). -/
def fbRead (fb : FrameBuffer) (r b : Nat) : Byte :=
  if h : r < 32 ∧ b < 8 then (fb[r]'h.1)[b]'h.2 else 0

/-- `FB[r][b] <- d`. -/
def fbWrite (fb : FrameBuffer) (r b : Nat) (d : Byte) : FrameBuffer :=
  if h : r < 32 then fb.set r ((fb[r]'h).setIfInBounds b d) else fb

/-- The clear frame buffer. -/
def fbClear : FrameBuffer := Vector.replicate 32 (Vector.replicate 8 0)

/-- The pixel at row `r`, column `c`: bit `7 - (c mod 8)` of `FB[r][c div 8]`. -/
def pixel (fb : FrameBuffer) (r c : Nat) : Bool := (fbRead fb r (c / 8)).getLsbD (7 - c % 8)

/-- A new frame buffer with the dirty flag set (10_state.md rule R31). -/
def redraw (s : State) (fb : FrameBuffer) : State := { s with fb := fb, needsRedraw := true }

/-! ## Random source (42_immediate_index_random.md rule R153) -/

/-- `rnd()`: one fresh draw. -/
def drawByte (s : State) : Byte := Config.randomByte s.draws

/-- The draw is taken: the next one is another. -/
def countDraw (s : State) : State := { s with draws := s.draws + 1 }

end Sys2Proof.Machine
end

