-- ==== Sys2Proof/Machine/Flags.lean ====
section
/-! DEFINITION. Every flag the spec computes (spec/43_alu.md rules R164 to R169, spec/44_draw.md rule R185) and the one
operation that writes a result and then the flag. -/

namespace Sys2Proof.Machine

/-- The flag register `VF` (10_state.md rule R21). -/
def flagReg : RegIdx := 15

/-- A flag as the full register holds it: exactly 0 or 1 (rule R21). -/
def flagByte (f : Bool) : Byte := if f then 1 else 0

/-- Carry out of the unsigned sum: it exceeds 255 (rule R164). -/
def carryOut (a b : Byte) : Bool := decide (255 < a.toNat + b.toNat)

/-- The strict comparison of the subtractions: 1 iff the minuend is greater (rules R165, R167; 90_conflicts.md C13). -/
def strictlyGreater (minuend subtrahend : Byte) : Bool := decide (subtrahend.toNat < minuend.toNat)

/-- The bit a right shift moves out (rule R166). -/
def lowBit (a : Byte) : Bool := a.getLsbD 0

/-- The bit a left shift moves out (rule R168). -/
def highBit (a : Byte) : Bool := a.getLsbD 7

/-- A set pixel was cleared: `(old and not8(new)) != 0` (44_draw.md rules R183, R185). -/
def clearedPixel (old new : Byte) : Bool := old &&& ~~~new != 0

/-- `V[x] <- r`, then `VF <- f`: with `x` = 15 the flag wins (rule R169). UNVERIFIED for the shifts (D7), log entry 11:
unsafe. -/
def writeResultThenFlag (s : State) (x : RegIdx) (r : Byte) (f : Bool) : State :=
  writeV (writeV s x r) flagReg (flagByte f)

end Sys2Proof.Machine
end

