-- ==== Sys2Proof/Machine/Operands.lean ====
section
/-! DEFINITION. Every operand form (spec/30_encoding.md rule R92) and the values that instructions make of their
operands before anything is written (spec/00_scope.md rule R9). -/

namespace Sys2Proof.Machine

/-- `zext_16(nnn)`: an absolute byte address (rule R92). -/
def addrOperand (nnn : BitVec 12) : Word := nnn.zeroExtend 16

/-- `zext_16(b)`: a register added to a 16-bit quantity (rule R92). -/
def zext16 (b : Byte) : Word := b.zeroExtend 16

/-- The target of `Bnnn`: `zext_16(nnn) + zext_16(V[0])`, at most 4350, not reduced (40_system_jump_call.md rule R125).
UNVERIFIED (D10), log entry 14: unsafe. -/
def offsetTarget (s : State) (nnn : BitVec 12) : Word := addrOperand nnn + zext16 (readV s 0)

/-- The source of the shifts: `V[x]` if `quirkShift` else `V[y]` (43_alu.md rules R166, R168). -/
def shiftSource (s : State) (x y : RegIdx) : Byte := if s.quirkShift then readV s x else readV s y

/-- A skip: a further `pc <- pc + 2` when the condition holds (41_skip.md). -/
def skipIf (c : Bool) (s : State) : State := if c then advancePc s else s

/-- `KEYS[k]`: the key is down (10_state.md rule R29). -/
def keyDown (s : State) (k : Byte) : Bool := s.keys.getLsbD k.toNat

/-- The key number check of `Ex9E` and `ExA1` (45_keypad_timer.md rule R206). UNVERIFIED (D8), log entry 12: safe. -/
def withKey (s : State) (k : Byte) (next : Host.Outcome State Fault Refusal) : Host.Outcome State Fault Refusal :=
  if 15 < k.toNat then raise (.keyIndexOutOfRange k) s else next

/-- `lowest_set(k)`: the least index of a set bit (00_scope.md rule R8); asked for nonzero `k` only. -/
def lowestSet (k : Word) : Nat := ((List.range 16).find? (fun i => k.getLsbD i)).getD 0

/-- The address of the glyph of a low nibble: `FONT_BASE + 5 * d` (46_index_memory.md rule R222). -/
def glyphAddress (b : Byte) : Word := BitVec.ofNat 16 (Config.fontBase + 5 * (b.extractLsb' 0 4).toNat)

/-- Hundreds, tens and units, a byte each (46_index_memory.md rule R223). -/
def decimalDigits (b : Byte) : List Byte :=
  [BitVec.ofNat 8 (b.toNat / 100), BitVec.ofNat 8 (b.toNat / 10 % 10), BitVec.ofNat 8 (b.toNat % 10)]

/-- How many registers `Fx55` and `Fx65` copy: `x + 1` (46_index_memory.md rules R224, R225). -/
def copyCount (x : RegIdx) : Nat := x.toNat + 1

/-- `if not quirkLoad: I <- I + x + 1` (46_index_memory.md rules R224, R225). -/
def advanceIndex (s : State) (x : RegIdx) : State :=
  if s.quirkLoad then s else setIndex s (s.index + BitVec.ofNat 16 (copyCount x))

end Sys2Proof.Machine
end

