-- ==== Sys2Proof/Machine/Alu.lean ====
section
/-! DEFINITION. The register-to-register family `8xyN` (spec/43_alu.md). Both operands are read before anything is
written; the result is written, then the flag (rule R169). -/

namespace Sys2Proof.Machine

/-- `8xy0` LD Vx, Vy (rule R160). -/
def execLdReg (x y : RegIdx) (s : State) : Host.Outcome State Fault Refusal := .next (writeV s x (readV s y))

/-- `8xy1` OR Vx, Vy (rule R161). -/
def execOrReg (x y : RegIdx) (s : State) : Host.Outcome State Fault Refusal :=
  .next (writeV s x (readV s x ||| readV s y))

/-- `8xy2` AND Vx, Vy (rule R162). -/
def execAndReg (x y : RegIdx) (s : State) : Host.Outcome State Fault Refusal :=
  .next (writeV s x (readV s x &&& readV s y))

/-- `8xy3` XOR Vx, Vy (rule R163). -/
def execXorReg (x y : RegIdx) (s : State) : Host.Outcome State Fault Refusal :=
  .next (writeV s x (readV s x ^^^ readV s y))

/-- `8xy4` ADD Vx, Vy (rule R164). -/
def execAddReg (x y : RegIdx) (s : State) : Host.Outcome State Fault Refusal :=
  .next (writeResultThenFlag s x (readV s x + readV s y) (carryOut (readV s x) (readV s y)))

/-- `8xy5` SUB Vx, Vy (rule R165). -/
def execSubReg (x y : RegIdx) (s : State) : Host.Outcome State Fault Refusal :=
  .next (writeResultThenFlag s x (readV s x - readV s y) (strictlyGreater (readV s x) (readV s y)))

/-- `8xy6` SHR Vx, Vy (rule R166). -/
def execShrReg (x y : RegIdx) (s : State) : Host.Outcome State Fault Refusal :=
  .next (writeResultThenFlag s x (shiftSource s x y >>> 1) (lowBit (shiftSource s x y)))

/-- `8xy7` SUBN Vx, Vy (rule R167). -/
def execSubnReg (x y : RegIdx) (s : State) : Host.Outcome State Fault Refusal :=
  .next (writeResultThenFlag s x (readV s y - readV s x) (strictlyGreater (readV s y) (readV s x)))

/-- `8xyE` SHL Vx, Vy (rule R168). -/
def execShlReg (x y : RegIdx) (s : State) : Host.Outcome State Fault Refusal :=
  .next (writeResultThenFlag s x (shiftSource s x y <<< 1) (highBit (shiftSource s x y)))

/-- `8xyn` with an unlisted `n` (rule R170): nothing beyond the fetch's advance. -/
def execAluNop (_x _y : RegIdx) (_n : BitVec 4) (s : State) : Host.Outcome State Fault Refusal := .next s

end Sys2Proof.Machine
end

