-- ==== Sys2Proof/Machine/Draw.lean ====
section
/-! DEFINITION. The sprite XOR-draw and collision-detect unit (spec/44_draw.md). A drawing answers the new frame buffer
and whether a set pixel was cleared. -/

namespace Sys2Proof.Machine

/-- `new = old xor d` in one frame-buffer byte, and whether it cleared a set pixel (rules R183, R185). -/
def xorByte (fb : FrameBuffer) (row b : Nat) (d : Byte) : FrameBuffer × Bool :=
  (fbWrite fb row b (fbRead fb row b ^^^ d), clearedPixel (fbRead fb row b) (fbRead fb row b ^^^ d))

/-- The left part of a sprite byte at bit offset `sh` (rule R182). -/
def leftPart (d : Byte) (sh : Nat) : Byte := d >>> sh

/-- The right part, in the next byte, when `sh` is nonzero (rule R182). -/
def rightPart (d : Byte) (sh : Nat) : Byte := d <<< (8 - sh)

/-- One sprite row: skipped whole unless its row and all eight columns are on the screen (rules R180, R184), else split
across at most two bytes (rule R182). UNVERIFIED (D11), log entry 15: unsafe. -/
def drawRow (fb : FrameBuffer) (col row : Nat) (d : Byte) : FrameBuffer × Bool :=
  if 31 < row ∨ 56 < col then (fb, false)
  else if col % 8 = 0 then xorByte fb row (col / 8) d
  else
    ((xorByte (xorByte fb row (col / 8) (leftPart d (col % 8))).1 row (col / 8 + 1) (rightPart d (col % 8))).1,
      (xorByte fb row (col / 8) (leftPart d (col % 8))).2 ||
        (xorByte (xorByte fb row (col / 8) (leftPart d (col % 8))).1 row (col / 8 + 1) (rightPart d (col % 8))).2)

/-- The sprite's rows from top to bottom (rule R183). -/
def drawRows (fb : FrameBuffer) (col row : Nat) : List Byte → FrameBuffer × Bool
  | [] => (fb, false)
  | d :: ds =>
    ((drawRows (drawRow fb col row d).1 col (row + 1) ds).1,
      (drawRow fb col row d).2 || (drawRows (drawRow fb col row d).1 col (row + 1) ds).2)

/-- The drawing of `Dxyn`: `n` bytes from `I` at column `V[x]` and row `V[y]`, taken as they stand (rules R180, R181). -/
def spriteDrawing (s : State) (x y : RegIdx) (n : BitVec 4) : FrameBuffer × Bool :=
  drawRows s.fb (readV s x).toNat (readV s y).toNat (loadBytes s.mem s.index.toNat n.toNat)

/-- `Dxyn` DRW Vx, Vy, n (rules R183, R186, R187). The range check is UNVERIFIED (D12), log entry 15: unsafe. -/
def execDrw (x y : RegIdx) (n : BitVec 4) (s : State) : Host.Outcome State Fault Refusal :=
  withRange s s.index.toNat n.toNat
    (.next (writeV (redraw s (spriteDrawing s x y n).1) flagReg (flagByte (spriteDrawing s x y n).2)))

end Sys2Proof.Machine
end

