-- ==== Sys2Proof/Machine/Immediate.lean ====
section
/-! DEFINITION. Immediate, index load and random (spec/42_immediate_index_random.md). -/

namespace Sys2Proof.Machine

/-- `6xnn` LD Vx, nn (rule R150). -/
def execLdImm (x : RegIdx) (nn : Byte) (s : State) : Host.Outcome State Fault Refusal := .next (writeV s x nn)

/-- `7xnn` ADD Vx, nn (rule R151): modulo 256, no flag. -/
def execAddImm (x : RegIdx) (nn : Byte) (s : State) : Host.Outcome State Fault Refusal :=
  .next (writeV s x (readV s x + nn))

/-- `Annn` LD I, nnn (rule R152). -/
def execLdIndex (nnn : BitVec 12) (s : State) : Host.Outcome State Fault Refusal :=
  .next (setIndex s (addrOperand nnn))

/-- `Cxnn` RND Vx, nn (rule R153): one fresh draw, masked. -/
def execRnd (x : RegIdx) (nn : Byte) (s : State) : Host.Outcome State Fault Refusal :=
  .next (countDraw (writeV s x (drawByte s &&& nn)))

end Sys2Proof.Machine
end

