-- ==== Sys2Proof/Syntax.lean ====
section
/-! DEFINITION. The instructions: one constructor per row of spec/opcode_table.json, in the table's order
(spec/30_encoding.md rule R93), the two no-op classes and the four reserved classes included. -/

namespace Sys2Proof

/-- An instruction with its fields (rules R90, R91): `x`, `y` register fields, `n` the low nibble, `nn` the low byte,
`nnn` the low twelve bits. -/
inductive Instr where
  /-- `00E0` CLS -/
  | cls
  /-- `00EE` RET -/
  | ret
  /-- `0nnn` SYS nnn, the defined no-op -/
  | sys (nnn : BitVec 12)
  /-- `1nnn` JP nnn -/
  | jp (nnn : BitVec 12)
  /-- `2nnn` CALL nnn -/
  | call (nnn : BitVec 12)
  /-- `3xnn` SE Vx, nn -/
  | seImm (x : RegIdx) (nn : Byte)
  /-- `4xnn` SNE Vx, nn -/
  | sneImm (x : RegIdx) (nn : Byte)
  /-- `5xy0` SE Vx, Vy -/
  | seReg (x y : RegIdx)
  /-- `5xyn`, n nonzero: reserved -/
  | reserved5 (x y : RegIdx) (n : BitVec 4)
  /-- `6xnn` LD Vx, nn -/
  | ldImm (x : RegIdx) (nn : Byte)
  /-- `7xnn` ADD Vx, nn -/
  | addImm (x : RegIdx) (nn : Byte)
  /-- `8xy0` LD Vx, Vy -/
  | ldReg (x y : RegIdx)
  /-- `8xy1` OR Vx, Vy -/
  | orReg (x y : RegIdx)
  /-- `8xy2` AND Vx, Vy -/
  | andReg (x y : RegIdx)
  /-- `8xy3` XOR Vx, Vy -/
  | xorReg (x y : RegIdx)
  /-- `8xy4` ADD Vx, Vy -/
  | addReg (x y : RegIdx)
  /-- `8xy5` SUB Vx, Vy -/
  | subReg (x y : RegIdx)
  /-- `8xy6` SHR Vx, Vy -/
  | shrReg (x y : RegIdx)
  /-- `8xy7` SUBN Vx, Vy -/
  | subnReg (x y : RegIdx)
  /-- `8xyE` SHL Vx, Vy -/
  | shlReg (x y : RegIdx)
  /-- `8xyn`, n in 8 9 A B C D F: the defined no-op -/
  | aluNop (x y : RegIdx) (n : BitVec 4)
  /-- `9xy0` SNE Vx, Vy -/
  | sneReg (x y : RegIdx)
  /-- `9xyn`, n nonzero: reserved -/
  | reserved9 (x y : RegIdx) (n : BitVec 4)
  /-- `Annn` LD I, nnn -/
  | ldIndex (nnn : BitVec 12)
  /-- `Bnnn` JP V0, nnn -/
  | jpV0 (nnn : BitVec 12)
  /-- `Cxnn` RND Vx, nn -/
  | rnd (x : RegIdx) (nn : Byte)
  /-- `Dxyn` DRW Vx, Vy, n -/
  | drw (x y : RegIdx) (n : BitVec 4)
  /-- `Ex9E` SKP Vx -/
  | skp (x : RegIdx)
  /-- `ExA1` SKNP Vx -/
  | sknp (x : RegIdx)
  /-- `Exnn`, nn not 9E or A1: reserved -/
  | reservedE (x : RegIdx) (nn : Byte)
  /-- `Fx07` LD Vx, DT -/
  | ldVxDt (x : RegIdx)
  /-- `Fx0A` LD Vx, K -/
  | ldVxKey (x : RegIdx)
  /-- `Fx15` LD DT, Vx -/
  | ldDtVx (x : RegIdx)
  /-- `Fx18` LD ST, Vx -/
  | ldStVx (x : RegIdx)
  /-- `Fx1E` ADD I, Vx -/
  | addIndex (x : RegIdx)
  /-- `Fx29` LD F, Vx -/
  | ldFont (x : RegIdx)
  /-- `Fx33` LD B, Vx -/
  | ldBcd (x : RegIdx)
  /-- `Fx55` LD [I], Vx -/
  | dumpRegs (x : RegIdx)
  /-- `Fx65` LD Vx, [I] -/
  | loadRegs (x : RegIdx)
  /-- `Fxnn`, nn not one of the nine defined: reserved -/
  | reservedF (x : RegIdx) (nn : Byte)
  deriving DecidableEq, Repr

end Sys2Proof
end

