-- ==== Sys2Proof/WellFormed.lean ====
section
/-! DEFINITION. Which field values an instruction may hold: the fields of the no-op and reserved classes exclude the
words that are instructions of their own (spec/30_encoding.md rules R93, R94, R95, R96). -/

namespace Sys2Proof

/-- The low nibbles of family 8 that name an operation of their own (rule R93). -/
def aluOperations : List (BitVec 4) := [0, 1, 2, 3, 4, 5, 6, 7, 0xE]

/-- The low bytes of family E that name an instruction (rule R93). -/
def keyOperations : List Byte := [0x9E, 0xA1]

/-- The low bytes of family F that name an instruction (rule R96). -/
def miscOperations : List Byte := [0x07, 0x0A, 0x15, 0x18, 0x1E, 0x29, 0x33, 0x55, 0x65]

/-- The instruction is what its own word decodes to (rules R94 to R96). -/
def Instr.wellFormed : Instr → Bool
  | .cls => true
  | .ret => true
  | .sys nnn => nnn != 0x0E0 && nnn != 0x0EE
  | .jp _ => true
  | .call _ => true
  | .seImm _ _ => true
  | .sneImm _ _ => true
  | .seReg _ _ => true
  | .reserved5 _ _ n => n != 0
  | .ldImm _ _ => true
  | .addImm _ _ => true
  | .ldReg _ _ => true
  | .orReg _ _ => true
  | .andReg _ _ => true
  | .xorReg _ _ => true
  | .addReg _ _ => true
  | .subReg _ _ => true
  | .shrReg _ _ => true
  | .subnReg _ _ => true
  | .shlReg _ _ => true
  | .aluNop _ _ n => !aluOperations.contains n
  | .sneReg _ _ => true
  | .reserved9 _ _ n => n != 0
  | .ldIndex _ => true
  | .jpV0 _ => true
  | .rnd _ _ => true
  | .drw _ _ _ => true
  | .skp _ => true
  | .sknp _ => true
  | .reservedE _ nn => !keyOperations.contains nn
  | .ldVxDt _ => true
  | .ldVxKey _ => true
  | .ldDtVx _ => true
  | .ldStVx _ => true
  | .addIndex _ => true
  | .ldFont _ => true
  | .ldBcd _ => true
  | .dumpRegs _ => true
  | .loadRegs _ => true
  | .reservedF _ nn => !miscOperations.contains nn

end Sys2Proof
end

