-- ==== Sys2Proof/Decode.lean ====
section
/-! DEFINITION. Decoding (spec/30_encoding.md rules R90 to R96), total on the 65536 words, and after it the encoder and
the opcode map as a table of masks (rule R93). A byte list shorter than one instruction is rejected by name. -/

namespace Sys2Proof

/-! ## Fields of a word (rule R90) -/

/-- `op`, bits 15 to 12. -/
def fieldOp (w : Word) : BitVec 4 := w.extractLsb' 12 4

/-- `x`, bits 11 to 8. -/
def fieldX (w : Word) : RegIdx := w.extractLsb' 8 4

/-- `y`, bits 7 to 4. -/
def fieldY (w : Word) : RegIdx := w.extractLsb' 4 4

/-- `n`, bits 3 to 0. -/
def fieldN (w : Word) : BitVec 4 := w.extractLsb' 0 4

/-- `nn`, bits 7 to 0. -/
def fieldNN (w : Word) : Byte := w.extractLsb' 0 8

/-- `nnn`, bits 11 to 0. -/
def fieldNNN (w : Word) : BitVec 12 := w.extractLsb' 0 12

/-! ## Words and bytes: the high byte lies at the lower address (20_memory.md rule R61) -/

/-- `w[15:8]`. -/
def highByte (w : Word) : Byte := w.extractLsb' 8 8

/-- `w[7:0]`. -/
def lowByte (w : Word) : Byte := w.extractLsb' 0 8

/-- The word of the byte at the lower address and the byte at the higher address. -/
def joinBytes (hi lo : Byte) : Word := hi ++ lo

/-! ## The decoder (rule R94) -/

/-- Family 0: the whole word is compared with `00E0` and `00EE`; any other word is the no-op. The match on all 16 bits
is UNVERIFIED, log entry 10: unsafe. -/
def decodeFamily0 (w : Word) : Instr :=
  if w = 0x00E0 then .cls else if w = 0x00EE then .ret else .sys (fieldNNN w)

/-- Family 5: the low nibble decides (rules R93, R96). -/
def decodeFamily5 (w : Word) : Instr :=
  if fieldN w = 0 then .seReg (fieldX w) (fieldY w) else .reserved5 (fieldX w) (fieldY w) (fieldN w)

/-- Family 8: the low nibble is the operation (rule R93); the unlisted ones are the no-op (rule R95). -/
def decodeFamily8 (w : Word) : Instr :=
  match (fieldN w).toNat with
  | 0x0 => .ldReg (fieldX w) (fieldY w)
  | 0x1 => .orReg (fieldX w) (fieldY w)
  | 0x2 => .andReg (fieldX w) (fieldY w)
  | 0x3 => .xorReg (fieldX w) (fieldY w)
  | 0x4 => .addReg (fieldX w) (fieldY w)
  | 0x5 => .subReg (fieldX w) (fieldY w)
  | 0x6 => .shrReg (fieldX w) (fieldY w)
  | 0x7 => .subnReg (fieldX w) (fieldY w)
  | 0xE => .shlReg (fieldX w) (fieldY w)
  | _ => .aluNop (fieldX w) (fieldY w) (fieldN w)

/-- Family 9: the low nibble decides (rules R93, R96). -/
def decodeFamily9 (w : Word) : Instr :=
  if fieldN w = 0 then .sneReg (fieldX w) (fieldY w) else .reserved9 (fieldX w) (fieldY w) (fieldN w)

/-- Family E: the low byte decides (rules R93, R96). -/
def decodeFamilyE (w : Word) : Instr :=
  match (fieldNN w).toNat with
  | 0x9E => .skp (fieldX w)
  | 0xA1 => .sknp (fieldX w)
  | _ => .reservedE (fieldX w) (fieldNN w)

/-- Family F: the low byte decides (rules R93, R96). -/
def decodeFamilyF (w : Word) : Instr :=
  match (fieldNN w).toNat with
  | 0x07 => .ldVxDt (fieldX w)
  | 0x0A => .ldVxKey (fieldX w)
  | 0x15 => .ldDtVx (fieldX w)
  | 0x18 => .ldStVx (fieldX w)
  | 0x1E => .addIndex (fieldX w)
  | 0x29 => .ldFont (fieldX w)
  | 0x33 => .ldBcd (fieldX w)
  | 0x55 => .dumpRegs (fieldX w)
  | 0x65 => .loadRegs (fieldX w)
  | _ => .reservedF (fieldX w) (fieldNN w)

/-- The instruction of a word: every word has exactly one (rule R94). -/
def decodeWord (w : Word) : Instr :=
  match (fieldOp w).toNat with
  | 0x0 => decodeFamily0 w
  | 0x1 => .jp (fieldNNN w)
  | 0x2 => .call (fieldNNN w)
  | 0x3 => .seImm (fieldX w) (fieldNN w)
  | 0x4 => .sneImm (fieldX w) (fieldNN w)
  | 0x5 => decodeFamily5 w
  | 0x6 => .ldImm (fieldX w) (fieldNN w)
  | 0x7 => .addImm (fieldX w) (fieldNN w)
  | 0x8 => decodeFamily8 w
  | 0x9 => decodeFamily9 w
  | 0xA => .ldIndex (fieldNNN w)
  | 0xB => .jpV0 (fieldNNN w)
  | 0xC => .rnd (fieldX w) (fieldNN w)
  | 0xD => .drw (fieldX w) (fieldY w) (fieldN w)
  | 0xE => decodeFamilyE w
  | _ => decodeFamilyF w

/-- Why a byte list holds no instruction. -/
inductive DecodeError where
  /-- Fewer than the two bytes of an instruction (rule R90). -/
  | truncated
  deriving DecidableEq, Repr

/-- The instruction at the head of a byte list and the bytes after it. -/
def decode : List Byte → Except DecodeError (Instr × List Byte)
  | hi :: lo :: rest => .ok (decodeWord (joinBytes hi lo), rest)
  | _ => .error .truncated

/-- The instruction the decoder reads from the row word `w` of `nbits` bits, laid out in memory order. Bit counts that
no instruction has are refused. DESIGN CHOICE, log entry 20: safe. -/
def decodeTableWord (nbits w : Nat) : Option Instr :=
  if nbits = 0 ∨ 16 < nbits then none
  else
    match decode [highByte (BitVec.ofNat 16 (w % 2 ^ nbits)), lowByte (BitVec.ofNat 16 (w % 2 ^ nbits))] with
    | .ok (i, _) => some i
    | .error _ => none

/-! ## The encoder (rules R91, R93) -/

/-- Format A: `op nnn`. -/
def packA (op : BitVec 4) (nnn : BitVec 12) : Word := op ++ nnn

/-- Formats XI and XF: `op x nn`. -/
def packXI (op : BitVec 4) (x : RegIdx) (nn : Byte) : Word := (op ++ x) ++ nn

/-- Format XY: `op x y n`. -/
def packXY (op : BitVec 4) (x y : RegIdx) (n : BitVec 4) : Word := ((op ++ x) ++ y) ++ n

/-- The word of an instruction, row by row of rule R93. -/
def encode : Instr → Word
  | .cls => 0x00E0
  | .ret => 0x00EE
  | .sys nnn => packA 0x0 nnn
  | .jp nnn => packA 0x1 nnn
  | .call nnn => packA 0x2 nnn
  | .seImm x nn => packXI 0x3 x nn
  | .sneImm x nn => packXI 0x4 x nn
  | .seReg x y => packXY 0x5 x y 0x0
  | .reserved5 x y n => packXY 0x5 x y n
  | .ldImm x nn => packXI 0x6 x nn
  | .addImm x nn => packXI 0x7 x nn
  | .ldReg x y => packXY 0x8 x y 0x0
  | .orReg x y => packXY 0x8 x y 0x1
  | .andReg x y => packXY 0x8 x y 0x2
  | .xorReg x y => packXY 0x8 x y 0x3
  | .addReg x y => packXY 0x8 x y 0x4
  | .subReg x y => packXY 0x8 x y 0x5
  | .shrReg x y => packXY 0x8 x y 0x6
  | .subnReg x y => packXY 0x8 x y 0x7
  | .shlReg x y => packXY 0x8 x y 0xE
  | .aluNop x y n => packXY 0x8 x y n
  | .sneReg x y => packXY 0x9 x y 0x0
  | .reserved9 x y n => packXY 0x9 x y n
  | .ldIndex nnn => packA 0xA nnn
  | .jpV0 nnn => packA 0xB nnn
  | .rnd x nn => packXI 0xC x nn
  | .drw x y n => packXY 0xD x y n
  | .skp x => packXI 0xE x 0x9E
  | .sknp x => packXI 0xE x 0xA1
  | .reservedE x nn => packXI 0xE x nn
  | .ldVxDt x => packXI 0xF x 0x07
  | .ldVxKey x => packXI 0xF x 0x0A
  | .ldDtVx x => packXI 0xF x 0x15
  | .ldStVx x => packXI 0xF x 0x18
  | .addIndex x => packXI 0xF x 0x1E
  | .ldFont x => packXI 0xF x 0x29
  | .ldBcd x => packXI 0xF x 0x33
  | .dumpRegs x => packXI 0xF x 0x55
  | .loadRegs x => packXI 0xF x 0x65
  | .reservedF x nn => packXI 0xF x nn

/-- The two bytes of an instruction in memory order (20_memory.md rule R61). -/
def encodeBytes (i : Instr) : List Byte := [highByte (encode i), lowByte (encode i)]

/-! ## The opcode map as a table (rule R93) -/

/-- One line of rule R93: a word belongs to the pattern when `w and mask = bits`. -/
structure OpcodeRow where
  /-- The row's mnemonic in opcode_table.json. -/
  mnemonic : String
  mask : Word
  bits : Word
  deriving DecidableEq, Repr

/-- The lines of rule R93 for families 0 to 7. -/
def opcodeRowsLow : List OpcodeRow :=
  [⟨"CLS", 0xFFFF, 0x00E0⟩, ⟨"RET", 0xFFFF, 0x00EE⟩, ⟨"SYS_nnn", 0xF000, 0x0000⟩, ⟨"JP_nnn", 0xF000, 0x1000⟩] ++
  [⟨"CALL_nnn", 0xF000, 0x2000⟩, ⟨"SE_Vx__nn", 0xF000, 0x3000⟩, ⟨"SNE_Vx__nn", 0xF000, 0x4000⟩] ++
  [⟨"SE_Vx__Vy", 0xF00F, 0x5000⟩, ⟨"RESERVED_5xyn", 0xF000, 0x5000⟩, ⟨"LD_Vx__nn", 0xF000, 0x6000⟩] ++
  [⟨"ADD_Vx__nn", 0xF000, 0x7000⟩]

/-- The lines of rule R93 for families 8 and 9. -/
def opcodeRowsAlu : List OpcodeRow :=
  [⟨"LD_Vx__Vy", 0xF00F, 0x8000⟩, ⟨"OR_Vx__Vy", 0xF00F, 0x8001⟩, ⟨"AND_Vx__Vy", 0xF00F, 0x8002⟩] ++
  [⟨"XOR_Vx__Vy", 0xF00F, 0x8003⟩, ⟨"ADD_Vx__Vy", 0xF00F, 0x8004⟩, ⟨"SUB_Vx__Vy", 0xF00F, 0x8005⟩] ++
  [⟨"SHR_Vx__Vy", 0xF00F, 0x8006⟩, ⟨"SUBN_Vx__Vy", 0xF00F, 0x8007⟩, ⟨"SHL_Vx__Vy", 0xF00F, 0x800E⟩] ++
  [⟨"ALUNOP_x__y__n", 0xF000, 0x8000⟩, ⟨"SNE_Vx__Vy", 0xF00F, 0x9000⟩, ⟨"RESERVED_9xyn", 0xF000, 0x9000⟩]

/-- The lines of rule R93 for families A to F. -/
def opcodeRowsHigh : List OpcodeRow :=
  [⟨"LD_I__nnn", 0xF000, 0xA000⟩, ⟨"JP_V0__nnn", 0xF000, 0xB000⟩, ⟨"RND_Vx__nn", 0xF000, 0xC000⟩] ++
  [⟨"DRW_Vx__Vy__n", 0xF000, 0xD000⟩, ⟨"SKP_Vx", 0xF0FF, 0xE09E⟩, ⟨"SKNP_Vx", 0xF0FF, 0xE0A1⟩] ++
  [⟨"RESERVED_Exnn", 0xF000, 0xE000⟩, ⟨"LD_Vx__DT", 0xF0FF, 0xF007⟩, ⟨"LD_Vx__K", 0xF0FF, 0xF00A⟩] ++
  [⟨"LD_DT__Vx", 0xF0FF, 0xF015⟩, ⟨"LD_ST__Vx", 0xF0FF, 0xF018⟩, ⟨"ADD_I__Vx", 0xF0FF, 0xF01E⟩] ++
  [⟨"LD_F__Vx", 0xF0FF, 0xF029⟩, ⟨"LD_B__Vx", 0xF0FF, 0xF033⟩, ⟨"LD__I___Vx", 0xF0FF, 0xF055⟩] ++
  [⟨"LD_Vx___I", 0xF0FF, 0xF065⟩, ⟨"RESERVED_Fxnn", 0xF000, 0xF000⟩]

/-- The whole map of rule R93. -/
def opcodeMap : List OpcodeRow := opcodeRowsLow ++ opcodeRowsAlu ++ opcodeRowsHigh

/-- The row's pattern holds the word. -/
def rowMatches (r : OpcodeRow) (w : Word) : Bool := w &&& r.mask == r.bits

/-- The number of bits set in a mask (rule R94: the row with the most wins). -/
def maskWeight (m : Word) : Nat := (List.range 16).countP (fun i => m.getLsbD i)

/-- The row of opcode_table.json that a constructor stands for (the same map as LAWS.json's). -/
def mnemonicOf : Instr → String
  | .cls => "CLS"
  | .ret => "RET"
  | .sys _ => "SYS_nnn"
  | .jp _ => "JP_nnn"
  | .call _ => "CALL_nnn"
  | .seImm _ _ => "SE_Vx__nn"
  | .sneImm _ _ => "SNE_Vx__nn"
  | .seReg _ _ => "SE_Vx__Vy"
  | .reserved5 _ _ _ => "RESERVED_5xyn"
  | .ldImm _ _ => "LD_Vx__nn"
  | .addImm _ _ => "ADD_Vx__nn"
  | .ldReg _ _ => "LD_Vx__Vy"
  | .orReg _ _ => "OR_Vx__Vy"
  | .andReg _ _ => "AND_Vx__Vy"
  | .xorReg _ _ => "XOR_Vx__Vy"
  | .addReg _ _ => "ADD_Vx__Vy"
  | .subReg _ _ => "SUB_Vx__Vy"
  | .shrReg _ _ => "SHR_Vx__Vy"
  | .subnReg _ _ => "SUBN_Vx__Vy"
  | .shlReg _ _ => "SHL_Vx__Vy"
  | .aluNop _ _ _ => "ALUNOP_x__y__n"
  | .sneReg _ _ => "SNE_Vx__Vy"
  | .reserved9 _ _ _ => "RESERVED_9xyn"
  | .ldIndex _ => "LD_I__nnn"
  | .jpV0 _ => "JP_V0__nnn"
  | .rnd _ _ => "RND_Vx__nn"
  | .drw _ _ _ => "DRW_Vx__Vy__n"
  | .skp _ => "SKP_Vx"
  | .sknp _ => "SKNP_Vx"
  | .reservedE _ _ => "RESERVED_Exnn"
  | .ldVxDt _ => "LD_Vx__DT"
  | .ldVxKey _ => "LD_Vx__K"
  | .ldDtVx _ => "LD_DT__Vx"
  | .ldStVx _ => "LD_ST__Vx"
  | .addIndex _ => "ADD_I__Vx"
  | .ldFont _ => "LD_F__Vx"
  | .ldBcd _ => "LD_B__Vx"
  | .dumpRegs _ => "LD__I___Vx"
  | .loadRegs _ => "LD_Vx___I"
  | .reservedF _ _ => "RESERVED_Fxnn"

end Sys2Proof
end

