-- ==== Sys2Proof/Machine/IndexMemory.lean ====
section
/-! DEFINITION. Index-register and memory instructions (spec/46_index_memory.md) and the reserved words of family F
(spec/30_encoding.md rule R96). -/

namespace Sys2Proof.Machine

/-- `Fx1E` ADD I, Vx (rule R220): modulo 65536, no flag. UNVERIFIED (D9), log entry 13: unsafe. -/
def execAddIndex (x : RegIdx) (s : State) : Host.Outcome State Fault Refusal :=
  .next (setIndex s (s.index + zext16 (readV s x)))

/-- `Fx29` LD F, Vx (rule R222). -/
def execLdFont (x : RegIdx) (s : State) : Host.Outcome State Fault Refusal :=
  .next (setIndex s (glyphAddress (readV s x)))

/-- `Fx33` LD B, Vx (rule R223). -/
def execLdBcd (x : RegIdx) (s : State) : Host.Outcome State Fault Refusal :=
  withRange s s.index.toNat 3
    (.next { s with mem := storeBytes s.mem s.index.toNat (decimalDigits (readV s x)) })

/-- `Fx55` LD [I], Vx (rule R224). -/
def execDumpRegs (x : RegIdx) (s : State) : Host.Outcome State Fault Refusal :=
  withRange s s.index.toNat (copyCount x)
    (.next (advanceIndex { s with mem := storeBytes s.mem s.index.toNat (readRegs s (copyCount x)) } x))

/-- `Fx65` LD Vx, [I] (rule R225). -/
def execLoadRegs (x : RegIdx) (s : State) : Host.Outcome State Fault Refusal :=
  withRange s s.index.toNat (copyCount x)
    (.next (advanceIndex (writeRegs s 0 (loadBytes s.mem s.index.toNat (copyCount x))) x))

/-- `Fxnn` with an unlisted `nn` (rule R96). -/
def execReservedF (x : RegIdx) (nn : Byte) (s : State) : Host.Outcome State Fault Refusal :=
  unknownOpcodeUnder Config.unknownOpcodePolicy (packXI 0xF x nn) s

end Sys2Proof.Machine
end

