-- ==== Sys2Proof/Machine/KeypadTimer.lean ====
section
/-! DEFINITION. Keypad and timer instructions (spec/45_keypad_timer.md) and the reserved words of family E
(spec/30_encoding.md rule R96). -/

namespace Sys2Proof.Machine

/-- `Ex9E` SKP Vx (rule R200). -/
def execSkp (x : RegIdx) (s : State) : Host.Outcome State Fault Refusal :=
  withKey s (readV s x) (.next (skipIf (keyDown s (readV s x)) s))

/-- `ExA1` SKNP Vx (rule R201). -/
def execSknp (x : RegIdx) (s : State) : Host.Outcome State Fault Refusal :=
  withKey s (readV s x) (.next (skipIf (!keyDown s (readV s x)) s))

/-- `Exnn` with an unlisted `nn` (rule R96). -/
def execReservedE (x : RegIdx) (nn : Byte) (s : State) : Host.Outcome State Fault Refusal :=
  unknownOpcodeUnder Config.unknownOpcodePolicy (packXI 0xE x nn) s

/-- `Fx07` LD Vx, DT (rule R202). -/
def execLdVxDt (x : RegIdx) (s : State) : Host.Outcome State Fault Refusal := .next (writeV s x s.dt)

/-- `Fx0A` LD Vx, K (rule R203): with no key held the program counter goes back to this instruction. -/
def execLdVxKey (x : RegIdx) (s : State) : Host.Outcome State Fault Refusal :=
  if s.keys = 0 then .next (rewindPc s) else .next (writeV s x (BitVec.ofNat 8 (lowestSet s.keys)))

/-- `Fx15` LD DT, Vx (rule R204). -/
def execLdDtVx (x : RegIdx) (s : State) : Host.Outcome State Fault Refusal := .next { s with dt := readV s x }

/-- `Fx18` LD ST, Vx (rule R205). -/
def execLdStVx (x : RegIdx) (s : State) : Host.Outcome State Fault Refusal := .next { s with st := readV s x }

end Sys2Proof.Machine
end

