-- ==== Sys2Proof/Machine/Skip.lean ====
section
/-! DEFINITION. Conditional skips (spec/41_skip.md) and the reserved words of families 5 and 9
(spec/30_encoding.md rule R96). -/

namespace Sys2Proof.Machine

/-- `3xnn` SE Vx, nn (rule R140). -/
def execSeImm (x : RegIdx) (nn : Byte) (s : State) : Host.Outcome State Fault Refusal :=
  .next (skipIf (readV s x == nn) s)

/-- `4xnn` SNE Vx, nn (rule R141). -/
def execSneImm (x : RegIdx) (nn : Byte) (s : State) : Host.Outcome State Fault Refusal :=
  .next (skipIf (readV s x != nn) s)

/-- `5xy0` SE Vx, Vy (rule R142). -/
def execSeReg (x y : RegIdx) (s : State) : Host.Outcome State Fault Refusal :=
  .next (skipIf (readV s x == readV s y) s)

/-- `9xy0` SNE Vx, Vy (rule R143). -/
def execSneReg (x y : RegIdx) (s : State) : Host.Outcome State Fault Refusal :=
  .next (skipIf (readV s x != readV s y) s)

/-- `5xyn` with `n` nonzero (rule R96). -/
def execReserved5 (x y : RegIdx) (n : BitVec 4) (s : State) : Host.Outcome State Fault Refusal :=
  unknownOpcodeUnder Config.unknownOpcodePolicy (packXY 0x5 x y n) s

/-- `9xyn` with `n` nonzero (rule R96). -/
def execReserved9 (x y : RegIdx) (n : BitVec 4) (s : State) : Host.Outcome State Fault Refusal :=
  unknownOpcodeUnder Config.unknownOpcodePolicy (packXY 0x9 x y n) s

end Sys2Proof.Machine
end

