-- ==== Sys2Proof/Machine/System.lean ====
section
/-! DEFINITION. System, jump, call and return (spec/40_system_jump_call.md). Every meaning is written against the state
after the fetch stage (30_encoding.md rule R100). -/

namespace Sys2Proof.Machine

/-- `00E0` CLS (rule R120). -/
def execCls (s : State) : Host.Outcome State Fault Refusal := .next (redraw s fbClear)

/-- `00EE` RET (rule R121): the count is decremented first, then the entry is read. -/
def execRet (s : State) : Host.Outcome State Fault Refusal :=
  if s.sp.val = 0 then raise .stackUnderflow s
  else .next (setPc (setSp s (s.sp.val - 1)) (stackRead s (s.sp.val - 1)))

/-- `0nnn` SYS nnn (rule R122): nothing beyond the fetch's advance. -/
def execSys (_nnn : BitVec 12) (s : State) : Host.Outcome State Fault Refusal := .next s

/-- `1nnn` JP nnn (rule R123). -/
def execJp (nnn : BitVec 12) (s : State) : Host.Outcome State Fault Refusal := .next (setPc s (addrOperand nnn))

/-- `2nnn` CALL nnn (rule R124): the return address is the fetched `pc`. -/
def execCall (nnn : BitVec 12) (s : State) : Host.Outcome State Fault Refusal :=
  if s.sp.val = 16 then raise .stackOverflow s
  else .next (setPc (setSp (stackWrite s s.sp.val s.pc) (s.sp.val + 1)) (addrOperand nnn))

/-- `Bnnn` JP V0, nnn (rule R125). -/
def execJpV0 (nnn : BitVec 12) (s : State) : Host.Outcome State Fault Refusal := .next (setPc s (offsetTarget s nnn))

end Sys2Proof.Machine
end

