-- ==== Sys2Proof/Machine/Fetch.lean ====
section
/-! DEFINITION. The fetch stage of a cycle (spec/30_encoding.md rule R100, spec/20_memory.md rule R61,
spec/60_exceptions.md rule R241), and placing an instruction where the next fetch finds it. -/

namespace Sys2Proof.Machine

/-- The word at an address: the byte there is the high half (rule R61). -/
def wordAt (m : Memory) (a : Nat) : Word := joinBytes (memRead m a) (memRead m (a + 1))

/-- The fetch stage: an error that changes nothing when a byte of the word lies above 4095 (rule R241), else the word
and the state with `pc` advanced by 2 (rule R100). -/
def fetch (s : State) : Except Fault (Word × State) :=
  if 4095 < s.pc.toNat + 1 then .error (.memoryOutOfRange (max s.pc.toNat 4096) s)
  else .ok (wordAt s.mem s.pc.toNat, advancePc s)

/-- Where the next instruction is placed: at `pc`, or at the program base when nothing can be fetched at `pc`.
DESIGN CHOICE, log entry 3: safe. -/
def placePc (s : State) : Word :=
  if 4095 < s.pc.toNat + 1 then BitVec.ofNat 16 Config.programBase else s.pc

/-- The state with a word stored where the next fetch reads it. -/
def placeWord (s : State) (w : Word) : State :=
  { s with pc := placePc s, mem := storeBytes s.mem (placePc s).toNat [highByte w, lowByte w] }

end Sys2Proof.Machine
end

