-- ==== Sys2Proof/Machine/Step.lean ====
section
/-! DEFINITION. One step is one `cycle` of the Engine (spec/30_encoding.md rule R100): fetch, advance, decode, execute.
No adapter moves inside it (20_memory.md rule R72); Machine/Adapters.lean holds their moves. -/

namespace Sys2Proof.Machine

/-- One cycle (rule R100). DESIGN CHOICE, log entry 5: unsafe for a claim about a run of steps alone. -/
def step (s : State) : Host.Outcome State Fault Refusal :=
  match fetch s with
  | .error f => .fault f
  | .ok (w, fetched) => exec (decodeWord w) fetched

/-- The state with the instruction of a row word stored where `step` fetches next (log entry 3). -/
def State.withFetchWord (s : State) (nbits w : Nat) : State := placeWord s (BitVec.ofNat 16 (w % 2 ^ nbits))

end Sys2Proof.Machine
end

