-- ==== Sys2Proof/Machine/Boot.lean ====
section
/-! DEFINITION. Construction with all its arguments (spec/70_reset_and_hazards.md rules R280 to R284,
spec/00_scope.md rule R6). -/

namespace Sys2Proof.Machine

/-- Whether the construction arguments are legal: 80 font bytes and a program that fits (rule R283).
UNVERIFIED (D25), log entry 24: safe. -/
def bootLegal (font program : List Byte) : Bool :=
  decide (font.length = 80) && decide (program.length ≤ Config.maxProgram)

/-- The initial memory image (rule R283): the font at 80, the program at 512. -/
def bootImage (font program : List Byte) : Memory :=
  storeBytes (storeBytes [] Config.fontBase font) Config.programBase program

/-- Construction (rules R280, R281): the quirk flags, the font and the program are arguments; an illegal image is refused
and no machine exists (rule R283). -/
def construct (quirkShift quirkLoad : Bool) (font program : List Byte) : Option State :=
  if bootLegal font program then
    some { State.reset with quirkShift := quirkShift, quirkLoad := quirkLoad, mem := bootImage font program }
  else none

end Sys2Proof.Machine
end

