-- ==== Sys2Proof/Machine/Adapters.lean ====
section
/-! DEFINITION. The moves of the four adapters between two cycles (spec/10_state.md rules R36 to R39,
spec/20_memory.md rule R72). -/

namespace Sys2Proof.Machine

/-- One move of an adapter. Which moves happen is in no state: a claim takes them as an argument (92_eei_decisions.md
D16, D17). UNVERIFIED, log entry 23: safe. -/
inductive AdapterMove where
  /-- The timer adapter ticks (rule R36). -/
  | timerTick
  /-- The keypad adapter replaces `KEYS` (rule R37). -/
  | keypadKeys (k : Word)
  /-- The keypad adapter passes a quit signal on (rules R32, R37). -/
  | keypadQuit
  /-- The display adapter consumes the frame buffer (rule R38). -/
  | displayRefresh
  /-- The audio adapter observes `ST` (rule R39). -/
  | audioRefresh
  deriving DecidableEq, Repr

/-- A timer counts down by 1 and stays at 0 (rules R36, 60_exceptions.md R254). -/
def countDown (t : Byte) : Byte := if t = 0 then 0 else t - 1

/-- A tick: both timers in one move (rule R36). -/
def timerTick (s : State) : State := { s with dt := countDown s.dt, st := countDown s.st }

/-- Any 16-bit value replaces `KEYS` (rule R37). -/
def keypadKeys (s : State) (k : Word) : State := { s with keys := k }

/-- The quit signal (rules R32, R37). -/
def keypadQuit (s : State) : State := { s with running := false }

/-- The display adapter clears the dirty flag (rule R38). -/
def displayRefresh (s : State) : State := { s with needsRedraw := false }

/-- What a move does to the state. -/
def moveAdapter (s : State) : AdapterMove → State
  | .timerTick => timerTick s
  | .keypadKeys k => keypadKeys s k
  | .keypadQuit => keypadQuit s
  | .displayRefresh => displayRefresh s
  | .audioRefresh => s

/-- At most one tick between two consecutive cycles (rule R36). -/
def gapLegal (moves : List AdapterMove) : Bool := decide (moves.count .timerTick ≤ 1)

/-- What happens between two cycles: moves in any order (90_conflicts.md C10), with at most one tick (rule R36). A list
with two ticks is no gap. -/
structure Gap where
  moves : List AdapterMove
  legal : gapLegal moves = true
  deriving DecidableEq, Repr

/-- The gap in which no adapter moves. -/
def idleGap : Gap := ⟨[], rfl⟩

/-- Moves one after another. -/
def applyMoves (s : State) (moves : List AdapterMove) : State := moves.foldl moveAdapter s

/-- The moves of a gap. -/
def applyGap (s : State) (g : Gap) : State := applyMoves s g.moves

end Sys2Proof.Machine
end

