-- ==== Sys2Proof/Machine/Loop.lean ====
section
/-! DEFINITION. The Engine and the adapters interleaved as the orchestration loop runs them (spec/10_state.md rule R40,
spec/20_memory.md rule R72, spec/70_reset_and_hazards.md rule R290), and a cycle as the host sees it
(spec/60_exceptions.md rules R240, R246, R251). -/

namespace Sys2Proof.Machine

/-- The result code of a cycle: 0 for `Ok`, else the error's code (rule R240); no refusal is reached. -/
def resultCode : Host.Outcome State Fault Refusal → Option Nat
  | .next _ => some 0
  | .fault f => some (errorCode f)
  | .refused _ => none

/-- The state after a cycle whatever its result: a host that goes on after an error invokes `cycle` from here
(rules R246, R251). -/
def afterCycle (s : State) : State :=
  match step s with
  | .next t => t
  | .fault f => stateLeft f
  | .refused _ => s

/-- The loop: while `running`, one cycle and then the moves of one gap; an error ends the run (rules R40, R249,
R290). A gap has at most one tick (rule R36). -/
def hostLoop (s : State) : List Gap → Host.Outcome State Fault Refusal
  | [] => .next s
  | g :: gs =>
    if s.running then
      match step s with
      | .next t => hostLoop (applyGap t g) gs
      | .fault f => .fault f
      | .refused r => .refused r
    else .next s

end Sys2Proof.Machine
end

