-- ==== Sys2Proof/Safety.lean ====
section
/-! DEFINITION. What claims are stated in: the invariant of the machine, what an instruction may change (the access table
spec/10_state.md rule R41), which fields the adapters own, and a run without an error (spec/60_exceptions.md rule R249). -/

namespace Sys2Proof.Machine

/-! ## The invariant -/

/-- Every reachable state: memory in canonical form, `pc` at most 4350 and every return address held at most 4096
(10_state.md rule R24). -/
structure MachineInv (s : State) : Prop where
  memory : Memory.wf s.mem = true
  counter : s.pc.toNat ≤ 4350
  returns : ∀ i, i < s.sp.val → (stackRead s i).toNat ≤ 4096

/-! ## Frames -/

/-- What may differ between the state before an instruction and the state after it. The fields no instruction may write
(`KEYS`, `running` and the quirk flags, rule R41) have no entry. -/
structure Changes where
  regs : RegIdx → Bool := fun _ => false
  pc : Bool := false
  index : Bool := false
  dt : Bool := false
  st : Bool := false
  sp : Bool := false
  entry : Nat → Bool := fun _ => false
  screen : Bool := false
  draws : Bool := false
  mem : Nat → Bool := fun _ => false

/-- Everything but the listed changes is as before; memory through the read of one byte. -/
structure Frame (c : Changes) (s t : State) : Prop where
  regs : ∀ r, c.regs r = false → readV t r = readV s r
  pc : c.pc = false → t.pc = s.pc
  index : c.index = false → t.index = s.index
  dt : c.dt = false → t.dt = s.dt
  st : c.st = false → t.st = s.st
  sp : c.sp = false → t.sp = s.sp
  entry : ∀ i, c.entry i = false → stackRead t i = stackRead s i
  fb : c.screen = false → t.fb = s.fb
  needsRedraw : c.screen = false → t.needsRedraw = s.needsRedraw
  draws : c.draws = false → t.draws = s.draws
  mem : ∀ a, c.mem a = false → memRead t.mem a = memRead s.mem a
  keys : t.keys = s.keys
  running : t.running = s.running
  quirkShift : t.quirkShift = s.quirkShift
  quirkLoad : t.quirkLoad = s.quirkLoad

/-- The change of one register. -/
def oneReg (x : RegIdx) : Changes := { regs := fun r => r == x }

/-- The change of a result register and the flag (43_alu.md rule R169). -/
def regAndFlag (x : RegIdx) : Changes := { regs := fun r => r == x || r == flagReg }

/-- The addresses of `count` bytes from `first`. -/
def bytesFrom (first count : Nat) (a : Nat) : Bool := decide (first ≤ a ∧ a < first + count)

/-- What each instruction may write beyond the fetch's advance, from the pre-state `s` (rule R41). -/
def mayChange (i : Instr) (s : State) : Changes :=
  match i with
  | .cls => { screen := true }
  | .ret => { pc := true, sp := true }
  | .sys _ => {}
  | .jp _ => { pc := true }
  | .call _ => { pc := true, sp := true, entry := fun k => k == s.sp.val }
  | .seImm _ _ => { pc := true }
  | .sneImm _ _ => { pc := true }
  | .seReg _ _ => { pc := true }
  | .reserved5 _ _ _ => {}
  | .ldImm x _ => oneReg x
  | .addImm x _ => oneReg x
  | .ldReg x _ => oneReg x
  | .orReg x _ => oneReg x
  | .andReg x _ => oneReg x
  | .xorReg x _ => oneReg x
  | .addReg x _ => regAndFlag x
  | .subReg x _ => regAndFlag x
  | .shrReg x _ => regAndFlag x
  | .subnReg x _ => regAndFlag x
  | .shlReg x _ => regAndFlag x
  | .aluNop _ _ _ => {}
  | .sneReg _ _ => { pc := true }
  | .reserved9 _ _ _ => {}
  | .ldIndex _ => { index := true }
  | .jpV0 _ => { pc := true }
  | .rnd x _ => { oneReg x with draws := true }
  | .drw _ _ _ => { oneReg flagReg with screen := true }
  | .skp _ => { pc := true }
  | .sknp _ => { pc := true }
  | .reservedE _ _ => {}
  | .ldVxDt x => oneReg x
  | .ldVxKey x => { oneReg x with pc := true }
  | .ldDtVx _ => { dt := true }
  | .ldStVx _ => { st := true }
  | .addIndex _ => { index := true }
  | .ldFont _ => { index := true }
  | .ldBcd _ => { mem := bytesFrom s.index.toNat 3 }
  | .dumpRegs x => { index := !s.quirkLoad, mem := bytesFrom s.index.toNat (copyCount x) }
  | .loadRegs x => { index := !s.quirkLoad, regs := fun r => decide (r.toNat < copyCount x) }
  | .reservedF _ _ => {}

/-! ## What a sprite covers -/

/-- The sprite of `Dxyn` has a 1 bit for the pixel at row `r`, column `c`, and that sprite row is drawn
(44_draw.md rules R184, R188). -/
def drawnBit (s : State) (x y : RegIdx) (n : BitVec 4) (r c : Nat) : Bool :=
  decide ((readV s x).toNat ≤ 56) &&
  decide ((readV s y).toNat ≤ r ∧ r < (readV s y).toNat + n.toNat) &&
  decide ((readV s x).toNat ≤ c ∧ c < (readV s x).toNat + 8) &&
  (memRead s.mem (s.index.toNat + (r - (readV s y).toNat))).getLsbD (7 - (c - (readV s x).toNat))

/-! ## What the adapters and the random source own -/

/-- The two states differ at most in the fields the adapters own and in the draw (60_exceptions.md rule R247). -/
structure SameButInputs (s t : State) : Prop where
  v : t.v = s.v
  pc : t.pc = s.pc
  index : t.index = s.index
  sp : t.sp = s.sp
  stack : t.stack = s.stack
  fb : t.fb = s.fb
  mem : t.mem = s.mem
  quirkShift : t.quirkShift = s.quirkShift
  quirkLoad : t.quirkLoad = s.quirkLoad

/-! ## Runs without an error -/

/-- The Engine completes `k` cycles with result `Ok` (rule R249). -/
def runsClean (k : Nat) (s : State) : Prop := ∃ t, Host.Core.run Sys2Proof.core k s = .next t

/-- The loop completes a schedule of gaps with no error (rules R40, R249). -/
def loopsClean (s : State) (gs : List Gap) : Prop := ∃ t, hostLoop s gs = .next t

end Sys2Proof.Machine
end

