-- ==== Sys2Proof/Certificates/Slice0/Obligations.lean ====
section
/-! DEFINITION. The statements for the provers. Every one is about the machine, none about a program. A statement that
rests on a decision of the spec (92_eei_decisions.md) or on a choice of this model says so and names the log entry. In
every statement about `exec` the state `s` is the state after the fetch stage (30_encoding.md rule R100). -/

open Sys2Proof Sys2Proof.Machine

/-! ## Encoding (30_encoding.md) -/

/-- Decoding the bytes of a well-formed instruction gives it back, with every operand at every value the encoding admits,
and leaves the bytes that follow (rules R90, R93). -/
def Obligations.WellFormedInstructionsRoundTrip : Prop :=
  ∀ i : Instr, i.wellFormed = true → ∀ rest : List Byte, decode (encodeBytes i ++ rest) = .ok (i, rest)

/-- Every word is the word of exactly the well-formed instruction it decodes to: no bit is dropped (rule R94, "Decoding is
total"). -/
def Obligations.EveryWordIsItsInstructionsWord : Prop :=
  ∀ w : Word, (decodeWord w).wellFormed = true ∧ encode (decodeWord w) = w

/-- The decoder takes, among the rows of the opcode map that hold a word, the one with the most mask bits; some row holds
every word, and no two rows with equal masks hold the same word (rule R94). Rests on the spec's decision D6 (log entry 10)
for `00E0` and `00EE` and on D5 (log entry 7) for the reserved rows. -/
def Obligations.LongestMaskRowIsDecoded : Prop :=
  (∀ w : Word, ∃ r ∈ opcodeMap, rowMatches r w = true) ∧
  (∀ (w : Word) (r r' : OpcodeRow), r ∈ opcodeMap → r' ∈ opcodeMap → rowMatches r w = true → rowMatches r' w = true →
    r.mask = r'.mask → r = r') ∧
  (∀ (w : Word) (r : OpcodeRow), r ∈ opcodeMap → rowMatches r w = true →
    (∀ r' ∈ opcodeMap, rowMatches r' w = true → maskWeight r'.mask ≤ maskWeight r.mask) →
    mnemonicOf (decodeWord w) = r.mnemonic)

/-- A few words written out from the encodings of rule R93, one of each family file. -/
def Obligations.SampleWordsDecode : Prop :=
  decodeWord 0x00E0 = .cls ∧ decodeWord 0x00EE = .ret ∧ decodeWord 0x0123 = .sys 0x123 ∧
  decodeWord 0x2300 = .call 0x300 ∧ decodeWord 0x332A = .seImm 3 0x2A ∧ decodeWord 0x9120 = .sneReg 1 2 ∧
  decodeWord 0x7205 = .addImm 2 0x05 ∧ decodeWord 0x812E = .shlReg 1 2 ∧ decodeWord 0x812F = .aluNop 1 2 0xF ∧
  decodeWord 0xD015 = .drw 0 1 5 ∧ decodeWord 0xE4A1 = .sknp 4 ∧ decodeWord 0xF20A = .ldVxKey 2 ∧
  decodeWord 0xF255 = .dumpRegs 2 ∧ decodeWord 0x5121 = .reserved5 1 2 1 ∧ decodeWord 0xF1FF = .reservedF 1 0xFF

/-! ## The cycle (30_encoding.md rule R100, 60_exceptions.md) -/

/-- When the two bytes at `pc` decode to a well-formed instruction, a step is that instruction on the same state with `pc`
advanced by 2 (rule R100). -/
def Obligations.StepRunsTheDecodedInstruction : Prop :=
  ∀ (s : State) (i : Instr), s.pc.toNat ≤ 4094 →
    decode [memRead s.mem s.pc.toNat, memRead s.mem (s.pc.toNat + 1)] = .ok (i, []) → i.wellFormed = true →
    step s = exec i { s with pc := s.pc + 2 }

/-- The word fetched is big-endian: the byte at the lower address counts 256 (20_memory.md rule R61). A fetch that would
read above 4095 raises the error and changes nothing (rule R241); the recorded value is the spec's decision D2 (log entry
8), the state left its decision D3 (log entry 9). -/
def Obligations.FetchIsBigEndianAndStaysInMemory : Prop :=
  (∀ (m : Memory) (a : Nat), (wordAt m a).toNat = 256 * (memRead m a).toNat + (memRead m (a + 1)).toNat) ∧
  (∀ s : State, 4095 ≤ s.pc.toNat → step s = .fault (.memoryOutOfRange (max s.pc.toNat 4096) s))

/-- Every cycle ends with `Ok` or exactly one of the five errors; none is refused (rule R240; codes are D2, log entry 8). -/
def Obligations.EveryCycleEndsInOkOrOneError : Prop :=
  ∀ s : State, ∃ c, c ≤ 5 ∧ resultCode (step s) = some c

/-- The whole list of errors (rule R240, "No other instruction can raise an error"): which instruction raises which, when,
with which recorded value, and that the state left is the one the instruction saw. Rests on D2, D3, D5, D8, D12, D22 (log
entries 7, 8, 9, 12, 15, 16). -/
def Obligations.ErrorsComeOnlyFromTheirInstructions : Prop :=
  ∀ (i : Instr) (s : State) (f : Fault), exec i s = .fault f →
    (i = .ret ∧ s.sp.val = 0 ∧ f = .stackUnderflow s) ∨
    (∃ nnn, i = .call nnn ∧ s.sp.val = 16 ∧ f = .stackOverflow s) ∨
    (∃ x, (i = .skp x ∨ i = .sknp x) ∧ 15 < (readV s x).toNat ∧ f = .keyIndexOutOfRange (readV s x) s) ∨
    (f = .memoryOutOfRange (max s.index.toNat 4096) s ∧
      ((∃ x y n, i = .drw x y n ∧ 1 ≤ n.toNat ∧ 4095 < s.index.toNat + n.toNat - 1) ∨
       (∃ x, i = .ldBcd x ∧ 4095 < s.index.toNat + 2) ∨
       (∃ x, (i = .dumpRegs x ∨ i = .loadRegs x) ∧ 4095 < s.index.toNat + x.toNat))) ∨
    (f = .unknownOpcode (encode i) s ∧
      ((∃ x y n, i = .reserved5 x y n ∨ i = .reserved9 x y n) ∨ ∃ x nn, i = .reservedE x nn ∨ i = .reservedF x nn))

/-- The state a faulting cycle leaves: the pre-state when the fetch faults, else the pre-state with `pc` advanced by 2 and
nothing else changed (rule R246, the spec's decision D3, log entry 9). -/
def Obligations.FaultingCycleLeavesOnlyPcAdvanced : Prop :=
  ∀ (s : State) (f : Fault), step s = .fault f →
    stateLeft f = if 4095 ≤ s.pc.toNat then s else { s with pc := s.pc + 2 }

/-- An error depends on no field the adapters own and on no draw: two states that differ only there fault alike, with the
same code and recorded value (rule R247). The codes and values are D2 (log entry 8). -/
def Obligations.ErrorsDependOnNoInput : Prop :=
  ∀ (s t : State) (f : Fault), SameButInputs s t → step s = .fault f →
    ∃ g, step t = .fault g ∧ errorCode g = errorCode f ∧ recordedValue g = recordedValue f

/-- A reserved word raises `UnknownOpcode` with itself recorded (rule R96), and a host that ignores the error and goes on
observes the ignore policy: the word was a no-op (rule R97). The spec's decisions D3, D4 and D5 (log entries 7 and 9). -/
def Obligations.ReservedWordsRaiseUnknownOpcode : Prop :=
  (∀ x y n s, exec (.reserved5 x y n) s = .fault (.unknownOpcode (encode (.reserved5 x y n)) s)) ∧
  (∀ x y n s, exec (.reserved9 x y n) s = .fault (.unknownOpcode (encode (.reserved9 x y n)) s)) ∧
  (∀ x nn s, exec (.reservedE x nn) s = .fault (.unknownOpcode (encode (.reservedE x nn)) s)) ∧
  (∀ x nn s, exec (.reservedF x nn) s = .fault (.unknownOpcode (encode (.reservedF x nn)) s)) ∧
  (∀ (s : State) (w : Word) (left : State), step s = .fault (.unknownOpcode w left) →
    w = wordAt s.mem s.pc.toNat ∧ unknownOpcodeUnder .ignore w { s with pc := s.pc + 2 } = .next (afterCycle s))

/-- An error ends every run: no run of at least one cycle, and no schedule of the running loop, completes from there
(rule R249, D27; log entry 6). -/
def Obligations.ErrorEndsEveryRun : Prop :=
  ∀ (s : State) (f : Fault), step s = .fault f →
    (∀ k, ¬ runsClean (k + 1) s) ∧ (s.running = true → ∀ g gs, ¬ loopsClean s (g :: gs))

/-! ## Reset and construction (10_state.md rule R43, 70_reset_and_hazards.md) -/

/-- What reset leaves (rule R43). `running` is the spec's decision D14 (log entry 17). Nothing is said of the quirk flags
and of the font region, whose values in `State.reset` are this model's (log entries 1 and 2). -/
def Obligations.ResetValues : Prop :=
  State.reset.pc.toNat = 512 ∧ (∀ r, readV State.reset r = 0) ∧ State.reset.index = 0 ∧ State.reset.sp.val = 0 ∧
  (∀ i, stackRead State.reset i = 0) ∧ State.reset.dt = 0 ∧ State.reset.st = 0 ∧ State.reset.keys = 0 ∧
  (∀ r b, fbRead State.reset.fb r b = 0) ∧ State.reset.needsRedraw = false ∧ State.reset.running = true ∧
  (∀ a, a < 80 ∨ 160 ≤ a → memRead State.reset.mem a = 0)

/-- Construction with legal arguments: the quirk flags are the arguments, the font stands at 80, the program at 512, every
other cell is 0, and everything else is as at reset (rules R43, R283). A program longer than 3584 bytes is refused, and so
is a font that is not 80 bytes. `State.reset` is the construction with both flags false, the customary font and no program.
Rests on D13, D14, D25 and on this model's choices (log entries 1, 2, 3, 17, 24). -/
def Obligations.ConstructionPlacesItsArguments : Prop :=
  (∀ (qs ql : Bool) (font program : List Byte), font.length = 80 → program.length ≤ 3584 →
    ∃ t, construct qs ql font program = some t ∧ t.quirkShift = qs ∧ t.quirkLoad = ql ∧
      (∀ i, i < 80 → memRead t.mem (80 + i) = font.getD i 0) ∧
      (∀ i, i < program.length → memRead t.mem (512 + i) = program.getD i 0) ∧
      (∀ a, a < 80 ∨ (160 ≤ a ∧ a < 512) ∨ 512 + program.length ≤ a → memRead t.mem a = 0) ∧
      t = { State.reset with quirkShift := qs, quirkLoad := ql, mem := t.mem }) ∧
  (∀ (qs ql : Bool) (font program : List Byte),
    construct qs ql font program = none ↔ font.length ≠ 80 ∨ 3584 < program.length) ∧
  construct false false Config.customaryFont [] = some State.reset

/-! ## Invariants -/

/-- Every step keeps the invariant: memory in canonical form, `pc` at most 4350, every return address held at most 4096
(10_state.md rule R24). Canonical form is this model's (log entry 19); `Bnnn` unreduced is D10 (log entry 14). -/
def Obligations.EveryStepKeepsTheInvariant : Prop :=
  ∀ s t : State, MachineInv s → step s = .next t → MachineInv t

/-- Every constructed machine, `State.reset` among them, meets the invariant. -/
def Obligations.ConstructedMachinesMeetTheInvariant : Prop :=
  MachineInv State.reset ∧
  ∀ (qs ql : Bool) (font program : List Byte) (t : State), construct qs ql font program = some t → MachineInv t

/-- The loop with any adapter moves in any gaps keeps the invariant, and so does a cycle that ends with an error
(10_state.md rules R24, R40; D3, D16, D17, log entries 9 and 23). -/
def Obligations.LoopAndFaultsKeepTheInvariant : Prop :=
  (∀ (gs : List Gap) (s t : State), MachineInv s → hostLoop s gs = .next t → MachineInv t) ∧
  ∀ s, MachineInv s → MachineInv (afterCycle s)

/-- No cycle writes `KEYS`, `running` or a quirk flag, whatever its result (10_state.md rules R29, R30, R32). -/
def Obligations.NoCycleWritesTheHostFields : Prop :=
  ∀ s : State, (afterCycle s).keys = s.keys ∧ (afterCycle s).running = s.running ∧
    (afterCycle s).quirkShift = s.quirkShift ∧ (afterCycle s).quirkLoad = s.quirkLoad

/-- No instruction reads `ST` or `running`: with other values there, every instruction that completes completes with the
same state but for these fields (10_state.md rules R27, R32, R41). -/
def Obligations.NoInstructionReadsSoundTimerOrRunning : Prop :=
  ∀ (i : Instr) (s t : State) (d : Byte) (b : Bool), exec i s = .next t →
    ∃ t', exec i { s with st := d, running := b } = .next t' ∧
      t' = { t with st := t'.st, running := b } ∧ (t'.st = t.st ∨ t'.st = d)

/-! ## Frames: what each instruction leaves unchanged (10_state.md rule R41; `mayChange`) -/

/-- `00E0` `00EE` `0nnn` `1nnn` `2nnn` `Bnnn`: no register but `pc`, no flag, no byte of memory. -/
def Obligations.FrameOfSystemJumpCall : Prop :=
  ∀ (i : Instr) (s t : State),
    (i = .cls ∨ i = .ret ∨ (∃ a, i = .sys a) ∨ (∃ a, i = .jp a) ∨ (∃ a, i = .call a) ∨ ∃ a, i = .jpV0 a) →
    exec i s = .next t → Frame (mayChange i s) s t

/-- `3xnn` `4xnn` `5xy0` `9xy0` change `pc` only; `6xnn` `7xnn` `Cxnn` the destination register and `Annn` `I`; no flag. -/
def Obligations.FrameOfSkipsAndImmediates : Prop :=
  ∀ (i : Instr) (s t : State),
    ((∃ x nn, i = .seImm x nn ∨ i = .sneImm x nn) ∨ (∃ x y, i = .seReg x y ∨ i = .sneReg x y) ∨
      (∃ x nn, i = .ldImm x nn ∨ i = .addImm x nn ∨ i = .rnd x nn) ∨ ∃ a, i = .ldIndex a) →
    exec i s = .next t → Frame (mayChange i s) s t

/-- `8xy0` to `8xy3`: the destination only, `VF` where it is the destination; `8xy4` to `8xy7` and `8xyE`: the destination
and `VF`; the no-ops of the family: nothing. -/
def Obligations.FrameOfAlu : Prop :=
  ∀ (i : Instr) (s t : State),
    ((∃ x y, i = .ldReg x y ∨ i = .orReg x y ∨ i = .andReg x y ∨ i = .xorReg x y) ∨
      (∃ x y, i = .addReg x y ∨ i = .subReg x y ∨ i = .shrReg x y ∨ i = .subnReg x y ∨ i = .shlReg x y) ∨
      ∃ x y n, i = .aluNop x y n) →
    exec i s = .next t → Frame (mayChange i s) s t

/-- `Dxyn`: `VF`, the frame buffer and the dirty flag, nothing else; the sprite's registers, `I` and memory stay. -/
def Obligations.FrameOfDraw : Prop :=
  ∀ (x y : RegIdx) (n : BitVec 4) (s t : State), exec (.drw x y n) s = .next t →
    Frame (mayChange (.drw x y n) s) s t

/-- Keypad and timer instructions: `pc`, the destination, or the one timer written. -/
def Obligations.FrameOfKeypadTimer : Prop :=
  ∀ (i : Instr) (s t : State) (x : RegIdx),
    (i = .skp x ∨ i = .sknp x ∨ i = .ldVxDt x ∨ i = .ldVxKey x ∨ i = .ldDtVx x ∨ i = .ldStVx x) →
    exec i s = .next t → Frame (mayChange i s) s t

/-- `Fx1E` `Fx29` change `I` only; `Fx33` the three bytes from `I`; `Fx55` the `x + 1` bytes from `I`; `Fx65` the registers
up to `x`; the last two `I` as well unless `quirkLoad`. -/
def Obligations.FrameOfIndexMemory : Prop :=
  ∀ (i : Instr) (s t : State) (x : RegIdx), Memory.wf s.mem = true →
    (i = .addIndex x ∨ i = .ldFont x ∨ i = .ldBcd x ∨ i = .dumpRegs x ∨ i = .loadRegs x) →
    exec i s = .next t → Frame (mayChange i s) s t

/-! ## System, jump, call (40_system_jump_call.md) -/

/-- `00E0` (rule R120): every byte and every pixel is 0, the dirty flag is set, nothing else changes, `VF` included. -/
def Obligations.ClearScreenClearsEveryPixel : Prop :=
  ∀ s : State, ∃ t, exec .cls s = .next t ∧ (∀ r b, fbRead t.fb r b = 0) ∧ (∀ r c, pixel t.fb r c = false) ∧
    t.needsRedraw = true ∧ t = { s with fb := t.fb, needsRedraw := true }

/-- `1nnn` (rule R123): `pc` is `nnn`, unchecked and unscaled; the next cycle runs the word there, at 4095 it faults, and a
jump to its own address is a cycle that changes nothing. Odd targets are D10 (log entry 14). -/
def Obligations.JumpSetsPc : Prop :=
  (∀ (nnn : BitVec 12) (s : State), ∃ t, exec (.jp nnn) s = .next t ∧ t.pc.toNat = nnn.toNat ∧
    t = { s with pc := t.pc } ∧ (nnn.toNat = 4095 → step t = .fault (.memoryOutOfRange 4096 t)) ∧
    (nnn.toNat ≤ 4094 → step t = exec (decodeWord (wordAt s.mem nnn.toNat)) { t with pc := t.pc + 2 })) ∧
  (∀ (nnn : BitVec 12) (s : State), s.pc.toNat = nnn.toNat → nnn.toNat ≤ 4094 →
    wordAt s.mem nnn.toNat = encode (.jp nnn) → step s = .next s)

/-- `Bnnn` (rule R125): `pc` is `nnn + V[0]`, not reduced (D10, log entry 14). -/
def Obligations.OffsetJumpAddsV0 : Prop :=
  ∀ (nnn : BitVec 12) (s : State), ∃ t, exec (.jpV0 nnn) s = .next t ∧
    t.pc.toNat = nnn.toNat + (readV s 0).toNat ∧ t = { s with pc := t.pc }

/-- `2nnn` (rule R124): with fewer than 16 addresses held the fetched `pc` is pushed whole and `pc` is `nnn`; with 16 the
error leaves everything as it was (rule R242; D2, D3, log entries 8 and 9). -/
def Obligations.CallPushesTheFetchedPc : Prop :=
  ∀ (nnn : BitVec 12) (s : State),
    (s.sp.val < 16 → ∃ t, exec (.call nnn) s = .next t ∧ stackRead t s.sp.val = s.pc ∧
      (∀ i, i ≠ s.sp.val → stackRead t i = stackRead s i) ∧ t.sp.val = s.sp.val + 1 ∧ t.pc.toNat = nnn.toNat ∧
      t = { s with pc := t.pc, sp := t.sp, stack := t.stack }) ∧
    (s.sp.val = 16 → exec (.call nnn) s = .fault (.stackOverflow s))

/-- `00EE` (rule R121): the count is decremented, then the entry there is the new `pc`, and it is not cleared; with no
address held the error leaves everything as it was (rule R243; D2, D3, log entries 8 and 9). -/
def Obligations.ReturnPopsTheLastEntry : Prop :=
  ∀ s : State,
    (1 ≤ s.sp.val → ∃ t, exec .ret s = .next t ∧ t.sp.val = s.sp.val - 1 ∧ t.pc = stackRead s (s.sp.val - 1) ∧
      t = { s with pc := t.pc, sp := t.sp }) ∧
    (s.sp.val = 0 → exec .ret s = .fault (.stackUnderflow s))

/-- A return from a state that holds the stack a call left comes back behind the call, whatever the subroutine did to
everything else (rules R121, R124). -/
def Obligations.ReturnComesBackBehindTheCall : Prop :=
  ∀ (nnn : BitVec 12) (s t u : State), exec (.call nnn) s = .next t → u.sp = t.sp → u.stack = t.stack →
    ∃ v, exec .ret u = .next v ∧ v.pc = s.pc ∧ v.sp = s.sp ∧ v = { u with pc := v.pc, sp := v.sp }

/-! ## Skips (41_skip.md) -/

/-- `3xnn` and `4xnn` (rules R140, R141): `pc` moves on by 2 exactly when the condition holds, nothing else changes. -/
def Obligations.ImmediateSkipsCompareForEquality : Prop :=
  ∀ (x : RegIdx) (nn : Byte) (s : State),
    exec (.seImm x nn) s = .next { s with pc := if readV s x = nn then s.pc + 2 else s.pc } ∧
    exec (.sneImm x nn) s = .next { s with pc := if readV s x = nn then s.pc else s.pc + 2 }

/-- `5xy0` and `9xy0` (rules R142, R143), `x = y` included. -/
def Obligations.RegisterSkipsCompareForEquality : Prop :=
  ∀ (x y : RegIdx) (s : State),
    exec (.seReg x y) s = .next { s with pc := if readV s x = readV s y then s.pc + 2 else s.pc } ∧
    exec (.sneReg x y) s = .next { s with pc := if readV s x = readV s y then s.pc else s.pc + 2 } ∧
    exec (.seReg x x) s = .next { s with pc := s.pc + 2 } ∧ exec (.sneReg x x) s = .next s

/-! ## Immediate, index, random (42_immediate_index_random.md) -/

/-- `6xnn` (rule R150), `VF` included. -/
def Obligations.LoadImmediateSetsTheRegister : Prop :=
  ∀ (x : RegIdx) (nn : Byte) (s : State), ∃ t, exec (.ldImm x nn) s = .next t ∧ readV t x = nn ∧
    (∀ r, r ≠ x → readV t r = readV s r) ∧ t = { s with v := t.v }

/-- `7xnn` (rule R151): modulo 256; `VF` is not written as a flag. -/
def Obligations.AddImmediateWrapsWithoutFlag : Prop :=
  ∀ (x : RegIdx) (nn : Byte) (s : State), ∃ t, exec (.addImm x nn) s = .next t ∧
    (readV t x).toNat = ((readV s x).toNat + nn.toNat) % 256 ∧
    (∀ r, r ≠ x → readV t r = readV s r) ∧ t = { s with v := t.v }

/-- `Annn` (rule R152): 0 to 4095, unchecked. -/
def Obligations.LoadIndexSetsI : Prop :=
  ∀ (nnn : BitVec 12) (s : State), ∃ t, exec (.ldIndex nnn) s = .next t ∧ t.index.toNat = nnn.toNat ∧
    t = { s with index := t.index }

/-- `Cxnn` (rule R153): the register holds the byte drawn, masked; one draw is taken; the masks `00` and `FF` give 0 and
the draw. The draw is a free value (D15, log entry 4): the statement holds for every byte it may be. -/
def Obligations.RandomByteIsMasked : Prop :=
  ∀ (x : RegIdx) (nn : Byte) (s : State), ∃ t, exec (.rnd x nn) s = .next t ∧
    (∀ i, i < 8 → (readV t x).getLsbD i = ((Config.randomByte s.draws).getLsbD i && nn.getLsbD i)) ∧
    (nn = 0x00 → readV t x = 0) ∧ (nn = 0xFF → readV t x = Config.randomByte s.draws) ∧
    (∀ r, r ≠ x → readV t r = readV s r) ∧ t = { s with v := t.v, draws := s.draws + 1 }

/-! ## The ALU family (43_alu.md) -/

/-- `8xy0` to `8xy3` (rules R160 to R163), bit by bit; `VF` is written only as the destination. -/
def Obligations.AssignAndLogicBitByBit : Prop :=
  ∀ (x y : RegIdx) (s : State),
    (∃ t, exec (.ldReg x y) s = .next t ∧ readV t x = readV s y ∧
      (∀ r, r ≠ x → readV t r = readV s r) ∧ t = { s with v := t.v }) ∧
    (∃ t, exec (.orReg x y) s = .next t ∧
      (∀ i, i < 8 → (readV t x).getLsbD i = ((readV s x).getLsbD i || (readV s y).getLsbD i)) ∧
      (∀ r, r ≠ x → readV t r = readV s r) ∧ t = { s with v := t.v }) ∧
    (∃ t, exec (.andReg x y) s = .next t ∧
      (∀ i, i < 8 → (readV t x).getLsbD i = ((readV s x).getLsbD i && (readV s y).getLsbD i)) ∧
      (∀ r, r ≠ x → readV t r = readV s r) ∧ t = { s with v := t.v }) ∧
    (∃ t, exec (.xorReg x y) s = .next t ∧
      (∀ i, i < 8 → (readV t x).getLsbD i = ((readV s x).getLsbD i ^^ (readV s y).getLsbD i)) ∧
      (∀ r, r ≠ x → readV t r = readV s r) ∧ t = { s with v := t.v })

/-- `8xy4` (rule R164) for every pair of registers: `VF` is the carry whatever `x` is, and the sum stands in `V[x]` unless
`x` is 15. That operands are read before `VF` is written is the spec's decision D7 (log entry 11). -/
def Obligations.AddWritesSumThenCarry : Prop :=
  ∀ (x y : RegIdx) (s : State), ∃ t, exec (.addReg x y) s = .next t ∧
    readV t 15 = (if 255 < (readV s x).toNat + (readV s y).toNat then 1 else 0) ∧
    (x ≠ 15 → (readV t x).toNat = ((readV s x).toNat + (readV s y).toNat) % 256) ∧
    (∀ r, r ≠ x → r ≠ 15 → readV t r = readV s r) ∧ t = { s with v := t.v }

/-- `8xy5` and `8xy7` (rules R165, R167) for every pair: the flag is the strict comparison, 0 when the operands are equal;
the difference is modulo 256. Pre-state operands with `y` = 15 are D7 (log entry 11). -/
def Obligations.SubtractionsWriteDifferenceThenStrictFlag : Prop :=
  ∀ (x y : RegIdx) (s : State),
    (∃ t, exec (.subReg x y) s = .next t ∧
      readV t 15 = (if (readV s y).toNat < (readV s x).toNat then 1 else 0) ∧
      (x ≠ 15 → ((readV t x).toNat : Int) = ((readV s x).toNat - (readV s y).toNat : Int) % 256) ∧
      (∀ r, r ≠ x → r ≠ 15 → readV t r = readV s r) ∧ t = { s with v := t.v }) ∧
    (∃ t, exec (.subnReg x y) s = .next t ∧
      readV t 15 = (if (readV s x).toNat < (readV s y).toNat then 1 else 0) ∧
      (x ≠ 15 → ((readV t x).toNat : Int) = ((readV s y).toNat - (readV s x).toNat : Int) % 256) ∧
      (∀ r, r ≠ x → r ≠ 15 → readV t r = readV s r) ∧ t = { s with v := t.v })

/-- `8xy6` and `8xyE` (rules R166, R168): the source by `quirkShift`, the bit shifted out in `VF`, the rest in `V[x]`
unless `x` is 15. That the flag wins there is D7 (log entry 11). -/
def Obligations.ShiftsMoveOneBitIntoTheFlag : Prop :=
  ∀ (x y : RegIdx) (s : State) (src : Nat),
    src = (if s.quirkShift then (readV s x).toNat else (readV s y).toNat) →
    (∃ t, exec (.shrReg x y) s = .next t ∧ (readV t 15).toNat = src % 2 ∧ (x ≠ 15 → (readV t x).toNat = src / 2) ∧
      (∀ r, r ≠ x → r ≠ 15 → readV t r = readV s r) ∧ t = { s with v := t.v }) ∧
    (∃ t, exec (.shlReg x y) s = .next t ∧ (readV t 15).toNat = src / 128 ∧
      (x ≠ 15 → (readV t x).toNat = 2 * src % 256) ∧
      (∀ r, r ≠ x → r ≠ 15 → readV t r = readV s r) ∧ t = { s with v := t.v })

/-- The unlisted operations of family 8 (rule R170) and the system no-op `0nnn` (rule R122): nothing changes. -/
def Obligations.NoOpsChangeNothing : Prop :=
  (∀ (x y : RegIdx) (n : BitVec 4) (s : State), exec (.aluNop x y n) s = .next s) ∧
  (∀ (nnn : BitVec 12) (s : State), exec (.sys nnn) s = .next s)

/-- After every instruction that writes the flag, whatever its operands, `VF` is exactly 0 or 1 (10_state.md rule R21). -/
def Obligations.FlagWritersLeaveZeroOrOne : Prop :=
  ∀ (i : Instr) (s t : State),
    ((∃ x y, i = .addReg x y ∨ i = .subReg x y ∨ i = .shrReg x y ∨ i = .subnReg x y ∨ i = .shlReg x y) ∨
      ∃ x y n, i = .drw x y n) →
    exec i s = .next t → readV t 15 = 0 ∨ readV t 15 = 1

/-! ## The draw unit (44_draw.md) -/

/-- `Dxyn` pixel by pixel (rule R188): when the sprite bytes lie in memory, every pixel is XORed with the sprite bit drawn
on it, `VF` is 1 exactly when some drawn bit lands on a set pixel, the dirty flag is set, and nothing else changes. Rows
are drawn whole or not at all, coordinates are not reduced, a height of 0 draws nothing: D11 and D12 (log entry 15). -/
def Obligations.DrawXorsTheSpritePixelByPixel : Prop :=
  ∀ (x y : RegIdx) (n : BitVec 4) (s : State), n.toNat = 0 ∨ s.index.toNat + n.toNat - 1 ≤ 4095 →
    ∃ t, exec (.drw x y n) s = .next t ∧ t.needsRedraw = true ∧
      (∀ r c, r < 32 → c < 64 → pixel t.fb r c = (pixel s.fb r c ^^ drawnBit s x y n r c)) ∧
      ((∃ r c, r < 32 ∧ c < 64 ∧ pixel s.fb r c = true ∧ drawnBit s x y n r c = true) → readV t 15 = 1) ∧
      ((¬ ∃ r c, r < 32 ∧ c < 64 ∧ pixel s.fb r c = true ∧ drawnBit s x y n r c = true) → readV t 15 = 0) ∧
      (∀ r, r ≠ 15 → readV t r = readV s r) ∧ t = { s with v := t.v, fb := t.fb, needsRedraw := true }

/-- `Dxyn` whose sprite bytes do not all lie in memory raises the error, skipped rows or not (rule R186; D2, D12, log entries
8 and 15). -/
def Obligations.DrawBeyondMemoryFaults : Prop :=
  ∀ (x y : RegIdx) (n : BitVec 4) (s : State), 1 ≤ n.toNat → 4095 < s.index.toNat + n.toNat - 1 →
    exec (.drw x y n) s = .fault (.memoryOutOfRange (max s.index.toNat 4096) s)

/-- Drawing the same sprite again at the same place, with no coordinate in `VF`, restores the frame buffer; the second draw
collides exactly when some drawn 1 bit landed on a pixel that was 0 before the first (rule R188). D11, D12 (log entry 15). -/
def Obligations.DrawingTwiceRestoresTheScreen : Prop :=
  ∀ (x y : RegIdx) (n : BitVec 4) (s t : State), x ≠ 15 → y ≠ 15 → exec (.drw x y n) s = .next t →
    ∃ u, exec (.drw x y n) t = .next u ∧ u.fb = s.fb ∧
      (readV u 15 = 1 ↔ ∃ r c, r < 32 ∧ c < 64 ∧ pixel s.fb r c = false ∧ drawnBit s x y n r c = true)

/-! ## Keypad and timers (45_keypad_timer.md) -/

/-- `Ex9E` and `ExA1` (rules R200, R201): the skip by the level of the key's bit; a key number above 15 is an error, the
spec's decision D8 (log entry 12). -/
def Obligations.KeySkipsTestOneBit : Prop :=
  ∀ (x : RegIdx) (s : State) (k : Nat), k = (readV s x).toNat →
    (k ≤ 15 →
      exec (.skp x) s = .next { s with pc := if s.keys.getLsbD k then s.pc + 2 else s.pc } ∧
      exec (.sknp x) s = .next { s with pc := if s.keys.getLsbD k then s.pc else s.pc + 2 }) ∧
    (15 < k → exec (.skp x) s = .fault (.keyIndexOutOfRange (readV s x) s) ∧
      exec (.sknp x) s = .fault (.keyIndexOutOfRange (readV s x) s))

/-- `Fx0A` (rule R203): with a key held the destination is the index of the lowest set bit and nothing else changes; with
none held `pc` goes back by 2, and the whole cycle changes nothing, so it repeats. -/
def Obligations.KeyReadBlocksUntilAKeyIsHeld : Prop :=
  (∀ (x : RegIdx) (s : State), s.keys ≠ 0 → ∃ t k, exec (.ldVxKey x) s = .next t ∧ k < 16 ∧
    s.keys.getLsbD k = true ∧ (∀ j, j < k → s.keys.getLsbD j = false) ∧ (readV t x).toNat = k ∧
    (∀ r, r ≠ x → readV t r = readV s r) ∧ t = { s with v := t.v }) ∧
  (∀ (x : RegIdx) (s : State), s.keys = 0 → exec (.ldVxKey x) s = .next { s with pc := s.pc - 2 }) ∧
  (∀ (x : RegIdx) (s : State), s.pc.toNat ≤ 4094 → wordAt s.mem s.pc.toNat = encode (.ldVxKey x) → s.keys = 0 →
    step s = .next s)

/-- `Fx07` (rule R202): the destination holds `DT`, which stays. `Fx15` and `Fx18` (rules R204, R205): any value, replacing
the running count of the one timer; a timer set to 0 counts down no further. -/
def Obligations.TimersAreReadAndWritten : Prop :=
  ∀ (x : RegIdx) (s : State),
    (∃ t, exec (.ldVxDt x) s = .next t ∧ readV t x = s.dt ∧ (∀ r, r ≠ x → readV t r = readV s r) ∧
      t = { s with v := t.v }) ∧
    exec (.ldDtVx x) s = .next { s with dt := readV s x } ∧ exec (.ldStVx x) s = .next { s with st := readV s x } ∧
    (readV s x = 0 → (moveAdapter { s with dt := readV s x } .timerTick).dt = 0 ∧
      (moveAdapter { s with st := readV s x } .timerTick).st = 0)

/-! ## Index and memory (46_index_memory.md) -/

/-- `Fx1E` (rule R220): modulo 65536, no flag; the wrap at 16 bits is the spec's decision D9 (log entry 13). -/
def Obligations.AddToIndexWrapsAtSixteenBits : Prop :=
  ∀ (x : RegIdx) (s : State), ∃ t, exec (.addIndex x) s = .next t ∧
    t.index.toNat = (s.index.toNat + (readV s x).toNat) % 65536 ∧ t = { s with index := t.index }

/-- `Fx29` (rule R222): 80 plus 5 times the low nibble; the high nibble is ignored and no memory is read. -/
def Obligations.FontAddressOfTheLowNibble : Prop :=
  ∀ (x : RegIdx) (s : State), ∃ t, exec (.ldFont x) s = .next t ∧
    t.index.toNat = 80 + 5 * ((readV s x).toNat % 16) ∧ t = { s with index := t.index }

/-- `Fx33` (rule R223): the three decimal digits, most significant at `I`; nothing else of memory changes; when a digit would
fall above 4095 the error comes before any write (D2, D22, log entries 8 and 16). -/
def Obligations.DecimalDigitsAreStored : Prop :=
  ∀ (x : RegIdx) (s : State), Memory.wf s.mem = true →
    (s.index.toNat + 2 ≤ 4095 → ∃ t, exec (.ldBcd x) s = .next t ∧
      (readV s x).toNat = 100 * (memRead t.mem s.index.toNat).toNat + 10 * (memRead t.mem (s.index.toNat + 1)).toNat +
        (memRead t.mem (s.index.toNat + 2)).toNat ∧
      (memRead t.mem s.index.toNat).toNat ≤ 2 ∧ (memRead t.mem (s.index.toNat + 1)).toNat ≤ 9 ∧
      (memRead t.mem (s.index.toNat + 2)).toNat ≤ 9 ∧
      (∀ a, a < s.index.toNat ∨ s.index.toNat + 3 ≤ a → memRead t.mem a = memRead s.mem a) ∧
      t = { s with mem := t.mem }) ∧
    (4095 < s.index.toNat + 2 → exec (.ldBcd x) s = .fault (.memoryOutOfRange (max s.index.toNat 4096) s))

/-- `Fx55` (rule R224): `V[0]` to `V[x]` at ascending addresses from the pre-state `I`; `I` advances by `x + 1` unless
`quirkLoad`; out of range the error comes before any write (D2, D22, log entries 8 and 16). -/
def Obligations.RegisterDumpStoresUpToX : Prop :=
  ∀ (x : RegIdx) (s : State), Memory.wf s.mem = true →
    (s.index.toNat + x.toNat ≤ 4095 → ∃ t, exec (.dumpRegs x) s = .next t ∧
      (∀ r : RegIdx, r.toNat ≤ x.toNat → memRead t.mem (s.index.toNat + r.toNat) = readV s r) ∧
      (∀ a, a < s.index.toNat ∨ s.index.toNat + x.toNat < a → memRead t.mem a = memRead s.mem a) ∧
      t.index.toNat = (if s.quirkLoad then s.index.toNat else s.index.toNat + x.toNat + 1) ∧
      t = { s with mem := t.mem, index := t.index }) ∧
    (4095 < s.index.toNat + x.toNat → exec (.dumpRegs x) s = .fault (.memoryOutOfRange (max s.index.toNat 4096) s))

/-- `Fx65` (rule R225): `V[0]` to `V[x]` from ascending addresses, the others as before, memory unchanged; `I` as for
`Fx55` (D2, D22, log entries 8 and 16). -/
def Obligations.RegisterLoadReadsUpToX : Prop :=
  ∀ (x : RegIdx) (s : State),
    (s.index.toNat + x.toNat ≤ 4095 → ∃ t, exec (.loadRegs x) s = .next t ∧
      (∀ r : RegIdx, r.toNat ≤ x.toNat → readV t r = memRead s.mem (s.index.toNat + r.toNat)) ∧
      (∀ r : RegIdx, x.toNat < r.toNat → readV t r = readV s r) ∧
      t.index.toNat = (if s.quirkLoad then s.index.toNat else s.index.toNat + x.toNat + 1) ∧
      t = { s with v := t.v, index := t.index }) ∧
    (4095 < s.index.toNat + x.toNat → exec (.loadRegs x) s = .fault (.memoryOutOfRange (max s.index.toNat 4096) s))

/-- What `Fx55` stored, `Fx65` with the same `x` from the same address loads back, whatever happened to the registers in
between (rules R224, R225). -/
def Obligations.LoadRestoresWhatDumpStored : Prop :=
  ∀ (x : RegIdx) (s t u : State), Memory.wf s.mem = true → exec (.dumpRegs x) s = .next t → u.mem = t.mem → u.index = s.index →
    ∃ v, exec (.loadRegs x) u = .next v ∧ ∀ r : RegIdx, r.toNat ≤ x.toNat → readV v r = readV s r

/-- A stored word is the one the next fetch from there reads: after `Fx55` with `x` at least 1, a cycle at the address `I`
held runs the word `V[0] V[1]` (20_memory.md rule R75, D23). -/
def Obligations.StoredWordIsFetchedNext : Prop :=
  ∀ (x : RegIdx) (s t : State), Memory.wf s.mem = true → 1 ≤ x.toNat → exec (.dumpRegs x) s = .next t →
    step { t with pc := s.index } =
      exec (decodeWord (joinBytes (readV s 0) (readV s 1))) { t with pc := s.index + 2 }

/-- A word placed by the host runs in the very next step (this model's `withFetchWord`, log entry 3). -/
def Obligations.PlacedWordRunsNext : Prop :=
  ∀ (s : State) (w : Word), Memory.wf s.mem = true →
    step (s.withFetchWord 16 w.toNat) =
      exec (decodeWord w) { s.withFetchWord 16 w.toNat with pc := (s.withFetchWord 16 w.toNat).pc + 2 }

/-! ## The adapters and the loop (10_state.md rules R36 to R40) -/

/-- The moves (rules R36 to R39): a tick takes 1 from each timer that is not 0, the others write only their own field.
Between two consecutive cycles, whatever the gap, each timer falls by 1 if the gap has a tick and it is not 0, and stays
otherwise: two ticks never happen (rule R36). That moves are free to happen or not is D16 and D17 (log entry 23). -/
def Obligations.AdapterMovesWriteOnlyTheirFields : Prop :=
  (∀ (s : State) (g : Gap),
    (applyGap s g).dt.toNat = (if .timerTick ∈ g.moves then s.dt.toNat - 1 else s.dt.toNat) ∧
    (applyGap s g).st.toNat = (if .timerTick ∈ g.moves then s.st.toNat - 1 else s.st.toNat)) ∧
  ∀ (s : State) (k : Word),
    (moveAdapter s .timerTick).dt.toNat = s.dt.toNat - 1 ∧ (moveAdapter s .timerTick).st.toNat = s.st.toNat - 1 ∧
    moveAdapter s .timerTick = { s with dt := (moveAdapter s .timerTick).dt, st := (moveAdapter s .timerTick).st } ∧
    moveAdapter s (.keypadKeys k) = { s with keys := k } ∧ moveAdapter s .keypadQuit = { s with running := false } ∧
    moveAdapter s .displayRefresh = { s with needsRedraw := false } ∧ moveAdapter s .audioRefresh = s

/-- The order of the moves in a gap is immaterial (90_conflicts.md C10): two lists of the same moves, in any order and with
at most one keypad write, leave the same state. -/
def Obligations.GapOrderIsImmaterial : Prop :=
  ∀ (s : State) (m m' : List AdapterMove), m.Perm m' → (∀ k k', .keypadKeys k ∈ m → .keypadKeys k' ∈ m → k = k') →
    applyMoves s m = applyMoves s m'

/-- The loop whose adapters never move is the repeated cycle, and it stops by itself only when `running` is false
(rules R40, R290). -/
def Obligations.IdleLoopIsTheRepeatedCycle : Prop :=
  (∀ (k : Nat) (s : State), s.running = true → hostLoop s (List.replicate k idleGap) = Host.Core.run Sys2Proof.core k s) ∧
  (∀ (s : State) (gs : List Gap), s.running = false → hostLoop s gs = .next s)
end

