-- ==== Sys2Proof/Laws/Adapters.lean ====
section
/-! SUPPORT. What the adapters' moves do to the timers and to the fields no adapter owns (spec/10_state.md rules R36 to
R39). -/

namespace Sys2Proof.Machine

theorem countDown_toNat (t : Byte) : (countDown t).toNat = t.toNat - 1 := by
  unfold countDown
  split
  · next h => subst h; rfl
  · next h =>
    have : t.toNat ≠ 0 := fun e => h (BitVec.eq_of_toNat_eq e)
    bv_omega

@[simp] theorem applyMoves_nil (s : State) : applyMoves s [] = s := rfl

@[simp] theorem applyMoves_cons (s : State) (a : AdapterMove) (m : List AdapterMove) :
    applyMoves s (a :: m) = applyMoves (moveAdapter s a) m := rfl

@[simp] theorem applyGap_idleGap (s : State) : applyGap s idleGap = s := rfl

/-- Only a tick writes a timer. -/
theorem moveAdapter_timers (s : State) {a : AdapterMove} (h : a ≠ .timerTick) :
    (moveAdapter s a).dt = s.dt ∧ (moveAdapter s a).st = s.st := by
  cases a with
  | timerTick => exact absurd rfl h
  | keypadKeys _ => exact ⟨rfl, rfl⟩
  | keypadQuit => exact ⟨rfl, rfl⟩
  | displayRefresh => exact ⟨rfl, rfl⟩
  | audioRefresh => exact ⟨rfl, rfl⟩

/-- Moves without a tick leave both timers. -/
theorem applyMoves_timers (s : State) {m : List AdapterMove} (h : AdapterMove.timerTick ∉ m) :
    (applyMoves s m).dt = s.dt ∧ (applyMoves s m).st = s.st := by
  induction m generalizing s with
  | nil => exact ⟨rfl, rfl⟩
  | cons a m ih =>
    rw [List.mem_cons, not_or] at h
    obtain ⟨hd, hs⟩ := moveAdapter_timers s (Ne.symm h.1)
    obtain ⟨ihd, ihs⟩ := ih (moveAdapter s a) h.2
    exact ⟨ihd.trans hd, ihs.trans hs⟩

end Sys2Proof.Machine
end

