-- ==== Sys2Proof/Laws/Decode.lean ====
section
/-! SUPPORT. Fields of a packed word, and packing the fields of a word (spec/30_encoding.md rule R90). -/

namespace Sys2Proof

/-! ## Fields of a packed word -/

@[simp] theorem fieldOp_packA (op : BitVec 4) (nnn : BitVec 12) : fieldOp (packA op nnn) = op := by
  apply BitVec.eq_of_getLsbD_eq
  intro i hi
  simp only [fieldOp, packA, BitVec.getLsbD_extractLsb', BitVec.getLsbD_append, hi, decide_true, Bool.true_and]
  rw [if_neg (by omega), show 12 + i - 12 = i by omega]

@[simp] theorem fieldNNN_packA (op : BitVec 4) (nnn : BitVec 12) : fieldNNN (packA op nnn) = nnn := by
  apply BitVec.eq_of_getLsbD_eq
  intro i hi
  simp only [fieldNNN, packA, BitVec.getLsbD_extractLsb', BitVec.getLsbD_append, hi, decide_true, Bool.true_and]
  rw [Nat.zero_add, if_pos (by omega)]

@[simp] theorem fieldOp_packXI (op : BitVec 4) (x : RegIdx) (nn : Byte) : fieldOp (packXI op x nn) = op := by
  apply BitVec.eq_of_getLsbD_eq
  intro i hi
  simp only [fieldOp, packXI, BitVec.getLsbD_extractLsb', BitVec.getLsbD_append, hi, decide_true, Bool.true_and]
  rw [if_neg (by omega), if_neg (by omega), show 12 + i - 8 - 4 = i by omega]

@[simp] theorem fieldX_packXI (op : BitVec 4) (x : RegIdx) (nn : Byte) : fieldX (packXI op x nn) = x := by
  apply BitVec.eq_of_getLsbD_eq
  intro i hi
  simp only [fieldX, packXI, BitVec.getLsbD_extractLsb', BitVec.getLsbD_append, hi, decide_true, Bool.true_and]
  rw [if_neg (by omega), if_pos (by omega), show 8 + i - 8 = i by omega]

@[simp] theorem fieldNN_packXI (op : BitVec 4) (x : RegIdx) (nn : Byte) : fieldNN (packXI op x nn) = nn := by
  apply BitVec.eq_of_getLsbD_eq
  intro i hi
  simp only [fieldNN, packXI, BitVec.getLsbD_extractLsb', BitVec.getLsbD_append, hi, decide_true, Bool.true_and]
  rw [Nat.zero_add, if_pos (by omega)]

@[simp] theorem fieldOp_packXY (op : BitVec 4) (x y : RegIdx) (n : BitVec 4) : fieldOp (packXY op x y n) = op := by
  apply BitVec.eq_of_getLsbD_eq
  intro i hi
  simp only [fieldOp, packXY, BitVec.getLsbD_extractLsb', BitVec.getLsbD_append, hi, decide_true, Bool.true_and]
  rw [if_neg (by omega), if_neg (by omega), if_neg (by omega), show 12 + i - 4 - 4 - 4 = i by omega]

@[simp] theorem fieldX_packXY (op : BitVec 4) (x y : RegIdx) (n : BitVec 4) : fieldX (packXY op x y n) = x := by
  apply BitVec.eq_of_getLsbD_eq
  intro i hi
  simp only [fieldX, packXY, BitVec.getLsbD_extractLsb', BitVec.getLsbD_append, hi, decide_true, Bool.true_and]
  rw [if_neg (by omega), if_neg (by omega), if_pos (by omega), show 8 + i - 4 - 4 = i by omega]

@[simp] theorem fieldY_packXY (op : BitVec 4) (x y : RegIdx) (n : BitVec 4) : fieldY (packXY op x y n) = y := by
  apply BitVec.eq_of_getLsbD_eq
  intro i hi
  simp only [fieldY, packXY, BitVec.getLsbD_extractLsb', BitVec.getLsbD_append, hi, decide_true, Bool.true_and]
  rw [if_neg (by omega), if_pos (by omega), show 4 + i - 4 = i by omega]

@[simp] theorem fieldN_packXY (op : BitVec 4) (x y : RegIdx) (n : BitVec 4) : fieldN (packXY op x y n) = n := by
  apply BitVec.eq_of_getLsbD_eq
  intro i hi
  simp only [fieldN, packXY, BitVec.getLsbD_extractLsb', BitVec.getLsbD_append, hi, decide_true, Bool.true_and]
  rw [Nat.zero_add, if_pos (by omega)]

/-! ## Packing the fields of a word -/

theorem packA_fields (w : Word) : packA (fieldOp w) (fieldNNN w) = w := by
  apply BitVec.eq_of_getLsbD_eq
  intro i hi
  simp only [packA, fieldOp, fieldNNN, BitVec.getLsbD_append, BitVec.getLsbD_extractLsb']
  split
  · simp [*]
  · rw [show 12 + (i - 12) = i by omega, decide_eq_true (by omega), Bool.true_and]

theorem packXI_fields (w : Word) : packXI (fieldOp w) (fieldX w) (fieldNN w) = w := by
  apply BitVec.eq_of_getLsbD_eq
  intro i hi
  simp only [packXI, fieldOp, fieldX, fieldNN, BitVec.getLsbD_append, BitVec.getLsbD_extractLsb']
  split
  · simp [*]
  · split
    · rw [show 8 + (i - 8) = i by omega, decide_eq_true (by omega), Bool.true_and]
    · rw [show 12 + (i - 8 - 4) = i by omega, decide_eq_true (by omega), Bool.true_and]

theorem packXY_fields (w : Word) : packXY (fieldOp w) (fieldX w) (fieldY w) (fieldN w) = w := by
  apply BitVec.eq_of_getLsbD_eq
  intro i hi
  simp only [packXY, fieldOp, fieldX, fieldY, fieldN, BitVec.getLsbD_append, BitVec.getLsbD_extractLsb']
  split
  · simp [*]
  · split
    · rw [show 4 + (i - 4) = i by omega, decide_eq_true (by omega), Bool.true_and]
    · split
      · rw [show 8 + (i - 4 - 4) = i by omega, decide_eq_true (by omega), Bool.true_and]
      · rw [show 12 + (i - 4 - 4 - 4) = i by omega, decide_eq_true (by omega), Bool.true_and]

/-! ## The masks of the opcode map (rule R93) -/

@[simp] theorem packA_and_op (op : BitVec 4) (nnn : BitVec 12) : packA op nnn &&& 0xF000#16 = packA op 0 := by
  apply BitVec.eq_of_getLsbD_eq
  intro i hi
  simp only [packA, BitVec.getLsbD_and, BitVec.getLsbD_append]
  interval_cases i <;> simp

@[simp] theorem packXI_and_op (op : BitVec 4) (x : RegIdx) (nn : Byte) :
    packXI op x nn &&& 0xF000#16 = packXI op 0 0 := by
  apply BitVec.eq_of_getLsbD_eq
  intro i hi
  simp only [packXI, BitVec.getLsbD_and, BitVec.getLsbD_append]
  interval_cases i <;> simp

@[simp] theorem packXI_and_low (op : BitVec 4) (x : RegIdx) (nn : Byte) :
    packXI op x nn &&& 0xF0FF#16 = packXI op 0 nn := by
  apply BitVec.eq_of_getLsbD_eq
  intro i hi
  simp only [packXI, BitVec.getLsbD_and, BitVec.getLsbD_append]
  interval_cases i <;> simp

@[simp] theorem packXY_and_op (op : BitVec 4) (x y : RegIdx) (n : BitVec 4) :
    packXY op x y n &&& 0xF000#16 = packXY op 0 0 0 := by
  apply BitVec.eq_of_getLsbD_eq
  intro i hi
  simp only [packXY, BitVec.getLsbD_and, BitVec.getLsbD_append]
  interval_cases i <;> simp

@[simp] theorem packXY_and_low (op : BitVec 4) (x y : RegIdx) (n : BitVec 4) :
    packXY op x y n &&& 0xF00F#16 = packXY op 0 0 n := by
  apply BitVec.eq_of_getLsbD_eq
  intro i hi
  simp only [packXY, BitVec.getLsbD_and, BitVec.getLsbD_append]
  interval_cases i <;> simp

/-! ## Bytes of a word -/

@[simp] theorem joinBytes_high_low (w : Word) : joinBytes (highByte w) (lowByte w) = w := by
  apply BitVec.eq_of_getLsbD_eq
  intro i hi
  simp only [joinBytes, highByte, lowByte, BitVec.getLsbD_append, BitVec.getLsbD_extractLsb']
  split
  · simp [*]
  · rw [show 8 + (i - 8) = i by omega, decide_eq_true (by omega), Bool.true_and]

theorem decode_bytes (w : Word) (rest : List Byte) :
    decode (highByte w :: lowByte w :: rest) = .ok (decodeWord w, rest) := by simp [decode]

end Sys2Proof
end

