-- ==== Sys2Proof/Laws/Memory.lean ====
section
/-! SUPPORT. Memory: read after write, the canonical form that every operation keeps, and bytes at ascending addresses
(spec/20_memory.md rules R62, R65, R71). -/

namespace Sys2Proof.Machine

/-! ## One byte -/

theorem memRead_memPut (m : Memory) (a c : Nat) (b : Byte) (lo : Nat) (h : canonicalFrom lo m = true) :
    memRead (memPut m a b) c = if c = a then b else memRead m c := by
  induction m generalizing lo with
  | nil =>
    unfold memPut
    split
    · next e => by_cases k : c = a <;> simp [memRead, k, e]
    · simp [memRead]
  | cons p m ih =>
    obtain ⟨k, d⟩ := p
    simp only [canonicalFrom, Bool.and_eq_true, decide_eq_true_eq] at h
    obtain ⟨⟨⟨_, _⟩, _⟩, htail⟩ := h
    have below : ∀ (l : Nat) (m : Memory) (x : Nat), canonicalFrom l m = true → x < l → memRead m x = unlistedByte x := by
      intro l m x hm hx
      induction m generalizing l with
      | nil => rfl
      | cons q m ihm =>
        obtain ⟨kq, dq⟩ := q
        simp only [canonicalFrom, Bool.and_eq_true, decide_eq_true_eq] at hm
        obtain ⟨⟨⟨h1, _⟩, _⟩, h4⟩ := hm
        rw [memRead, if_neg (by omega)]
        exact ihm (kq + 1) h4 (by omega)
    unfold memPut
    split
    · next lt =>
      split
      · next e =>
        by_cases ca : c = a
        · subst ca
          rw [if_pos rfl, memRead, if_neg (by omega), below (k + 1) m c htail (by omega), e]
        · rw [if_neg ca]
      · simp [memRead]
    · split
      · next nlt e =>
        subst e
        split
        · next e2 =>
          by_cases ca : c = a
          · subst ca
            rw [if_pos rfl, below (c + 1) m c htail (by omega), e2]
          · simp [memRead, ca]
        · by_cases ca : c = a <;> simp [memRead, ca]
      · next nlt ne =>
        rw [memRead, memRead, ih (k + 1) htail]
        by_cases ca : c = a
        · subst ca; simp [ne]
        · simp [ca]

theorem canonicalFrom_memPut (m : Memory) (a : Nat) (b : Byte) (lo : Nat) (h : canonicalFrom lo m = true)
    (hlo : lo ≤ a) (ha : a < Config.memorySize) : canonicalFrom lo (memPut m a b) = true := by
  induction m generalizing lo with
  | nil =>
    unfold memPut
    split
    · rfl
    · next e => simp [canonicalFrom, hlo, ha, e]
  | cons p m ih =>
    obtain ⟨k, d⟩ := p
    simp only [canonicalFrom, Bool.and_eq_true, decide_eq_true_eq] at h
    obtain ⟨⟨⟨h1, h2⟩, h3⟩, h4⟩ := h
    have widen : ∀ (l l' : Nat) (m : Memory), l' ≤ l → canonicalFrom l m = true → canonicalFrom l' m = true := by
      intro l l' m hl hm
      cases m with
      | nil => rfl
      | cons q m =>
        obtain ⟨kq, dq⟩ := q
        simp only [canonicalFrom, Bool.and_eq_true, decide_eq_true_eq] at hm ⊢
        exact ⟨⟨⟨by omega, hm.1.1.2⟩, hm.1.2⟩, hm.2⟩
    unfold memPut
    split
    · next lt =>
      split
      · simp only [canonicalFrom, Bool.and_eq_true, decide_eq_true_eq]
        exact ⟨⟨⟨h1, h2⟩, h3⟩, h4⟩
      · next e =>
        simp only [canonicalFrom, Bool.and_eq_true, decide_eq_true_eq]
        exact ⟨⟨⟨hlo, ha⟩, by simpa using e⟩, ⟨⟨⟨by omega, h2⟩, h3⟩, h4⟩⟩
    · split
      · next nlt e =>
        subst e
        split
        · exact widen (a + 1) lo m (by omega) h4
        · next e2 =>
          simp only [canonicalFrom, Bool.and_eq_true, decide_eq_true_eq]
          exact ⟨⟨⟨h1, h2⟩, by simpa using e2⟩, h4⟩
      · next nlt ne =>
        simp only [canonicalFrom, Bool.and_eq_true, decide_eq_true_eq]
        exact ⟨⟨⟨h1, h2⟩, h3⟩, ih (k + 1) h4 (by omega)⟩

/-- A write keeps the canonical form, whatever the address. -/
theorem wf_memWrite {m : Memory} (h : Memory.wf m = true) (a : Nat) (b : Byte) :
    Memory.wf (memWrite m a b) = true := by
  unfold memWrite
  split
  · next ha => exact canonicalFrom_memPut m a b 0 h (Nat.zero_le a) ha
  · exact h

/-- Read after write: the byte written there, everything else as before (rule R71). -/
theorem memRead_memWrite {m : Memory} (h : Memory.wf m = true) {a : Nat} (ha : a < Config.memorySize) (b : Byte)
    (c : Nat) : memRead (memWrite m a b) c = if c = a then b else memRead m c := by
  rw [memWrite, if_pos ha]
  exact memRead_memPut m a c b 0 h

/-! ## Bytes at ascending addresses -/

theorem wf_storeBytes (bs : List Byte) {m : Memory} (h : Memory.wf m = true) (a : Nat) :
    Memory.wf (storeBytes m a bs) = true := by
  induction bs generalizing m a with
  | nil => exact h
  | cons b bs ih => exact ih (wf_memWrite h a b) (a + 1)

theorem memRead_storeBytes (bs : List Byte) {m : Memory} (h : Memory.wf m = true) (a : Nat)
    (ha : a + bs.length ≤ Config.memorySize) (c : Nat) :
    memRead (storeBytes m a bs) c = if a ≤ c ∧ c < a + bs.length then bs.getD (c - a) 0 else memRead m c := by
  induction bs generalizing m a with
  | nil =>
    have : ¬(a ≤ c ∧ c < a + ([] : List Byte).length) := by simp
    simp only [storeBytes, if_neg this]
  | cons b bs ih =>
    simp only [List.length_cons] at ha ⊢
    rw [storeBytes, ih (wf_memWrite h a b) (a + 1) (by omega), memRead_memWrite h (by omega)]
    by_cases e : c = a
    · subst e
      rw [if_neg (by omega), if_pos rfl, if_pos (by omega)]; simp
    · by_cases l : a + 1 ≤ c ∧ c < a + 1 + bs.length
      · obtain ⟨k, hk⟩ : ∃ k, c = a + 1 + k := ⟨c - (a + 1), by omega⟩
        rw [if_pos l, if_pos (by omega), hk]
        rw [show a + 1 + k - (a + 1) = k by omega, show a + 1 + k - a = k + 1 by omega]
        simp
      · rw [if_neg l, if_neg e, if_neg (by omega)]

@[simp] theorem loadBytes_length (m : Memory) (a n : Nat) : (loadBytes m a n).length = n := by simp [loadBytes]

theorem loadBytes_getD (m : Memory) (a n i : Nat) (h : i < n) : (loadBytes m a n).getD i 0 = memRead m (a + i) := by
  simp [loadBytes, List.getD_eq_getElem?_getD, h]

/-- Equal reads are equal memories: the canonical form is one. -/
theorem wf_ext_from (m m' : Memory) (lo : Nat) (h : canonicalFrom lo m = true) (h' : canonicalFrom lo m' = true)
    (e : ∀ a, memRead m a = memRead m' a) : m = m' := by
  have below : ∀ (l : Nat) (m : Memory) (x : Nat), canonicalFrom l m = true → x < l → memRead m x = unlistedByte x := by
    intro l m x hm hx
    induction m generalizing l with
    | nil => rfl
    | cons q m ihm =>
      obtain ⟨kq, dq⟩ := q
      simp only [canonicalFrom, Bool.and_eq_true, decide_eq_true_eq] at hm
      obtain ⟨⟨⟨h1, _⟩, _⟩, h4⟩ := hm
      rw [memRead, if_neg (by omega)]
      exact ihm (kq + 1) h4 (by omega)
  induction m generalizing m' lo with
  | nil =>
    cases m' with
    | nil => rfl
    | cons q m' =>
      obtain ⟨k, d⟩ := q
      simp only [canonicalFrom, Bool.and_eq_true, decide_eq_true_eq, bne_iff_ne] at h'
      have := e k
      simp [memRead] at this
      exact absurd this.symm h'.1.2
  | cons p m ih =>
    obtain ⟨k, d⟩ := p
    simp only [canonicalFrom, Bool.and_eq_true, decide_eq_true_eq, bne_iff_ne] at h
    obtain ⟨⟨⟨h1, h2⟩, h3⟩, h4⟩ := h
    cases m' with
    | nil =>
      have := e k
      simp [memRead] at this
      exact absurd this h3
    | cons q m' =>
      obtain ⟨k', d'⟩ := q
      simp only [canonicalFrom, Bool.and_eq_true, decide_eq_true_eq, bne_iff_ne] at h'
      obtain ⟨⟨⟨g1, g2⟩, g3⟩, g4⟩ := h'
      have hk : k = k' := by
        rcases Nat.lt_trichotomy k k' with l | l | l
        · have := e k
          rw [memRead, if_pos rfl, memRead, if_neg (by omega), below (k' + 1) m' k g4 (by omega)] at this
          exact absurd this h3
        · exact l
        · have := e k'
          rw [memRead, if_neg (by omega), below (k + 1) m k' h4 (by omega), memRead, if_pos rfl] at this
          exact absurd this.symm g3
      subst hk
      have hd : d = d' := by simpa [memRead] using e k
      subst hd
      congr 1
      refine ih m' (k + 1) h4 g4 fun a => ?_
      by_cases ak : a = k
      · subst ak
        rw [below (a + 1) m a h4 (by omega), below (a + 1) m' a g4 (by omega)]
      · simpa [memRead, ak] using e a

theorem wf_ext {m m' : Memory} (h : Memory.wf m = true) (h' : Memory.wf m' = true)
    (e : ∀ a, memRead m a = memRead m' a) : m = m' := wf_ext_from m m' 0 h h' e

theorem wf_nil : Memory.wf [] = true := rfl

end Sys2Proof.Machine
end

