-- ==== Sys2Proof/Laws/State.lean ====
section
/-! SUPPORT. One lemma per field per named update of the state, so that no proof unfolds a record update. -/

namespace Sys2Proof.Machine

/-! ## `writeV` -/

@[simp] theorem writeV_pc (s : State) (x : RegIdx) (b : Byte) : (writeV s x b).pc = s.pc := rfl
@[simp] theorem writeV_index (s : State) (x : RegIdx) (b : Byte) : (writeV s x b).index = s.index := rfl
@[simp] theorem writeV_dt (s : State) (x : RegIdx) (b : Byte) : (writeV s x b).dt = s.dt := rfl
@[simp] theorem writeV_st (s : State) (x : RegIdx) (b : Byte) : (writeV s x b).st = s.st := rfl
@[simp] theorem writeV_sp (s : State) (x : RegIdx) (b : Byte) : (writeV s x b).sp = s.sp := rfl
@[simp] theorem writeV_stack (s : State) (x : RegIdx) (b : Byte) : (writeV s x b).stack = s.stack := rfl
@[simp] theorem writeV_keys (s : State) (x : RegIdx) (b : Byte) : (writeV s x b).keys = s.keys := rfl
@[simp] theorem writeV_fb (s : State) (x : RegIdx) (b : Byte) : (writeV s x b).fb = s.fb := rfl
@[simp] theorem writeV_needsRedraw (s : State) (x : RegIdx) (b : Byte) : (writeV s x b).needsRedraw = s.needsRedraw := rfl
@[simp] theorem writeV_running (s : State) (x : RegIdx) (b : Byte) : (writeV s x b).running = s.running := rfl
@[simp] theorem writeV_quirkShift (s : State) (x : RegIdx) (b : Byte) : (writeV s x b).quirkShift = s.quirkShift := rfl
@[simp] theorem writeV_quirkLoad (s : State) (x : RegIdx) (b : Byte) : (writeV s x b).quirkLoad = s.quirkLoad := rfl
@[simp] theorem writeV_mem (s : State) (x : RegIdx) (b : Byte) : (writeV s x b).mem = s.mem := rfl
@[simp] theorem writeV_draws (s : State) (x : RegIdx) (b : Byte) : (writeV s x b).draws = s.draws := rfl

/-! ## `advancePc` -/

@[simp] theorem advancePc_v (s : State) : (advancePc s).v = s.v := rfl
@[simp] theorem advancePc_pc (s : State) : (advancePc s).pc = s.pc + 2 := rfl
@[simp] theorem advancePc_index (s : State) : (advancePc s).index = s.index := rfl
@[simp] theorem advancePc_dt (s : State) : (advancePc s).dt = s.dt := rfl
@[simp] theorem advancePc_st (s : State) : (advancePc s).st = s.st := rfl
@[simp] theorem advancePc_sp (s : State) : (advancePc s).sp = s.sp := rfl
@[simp] theorem advancePc_stack (s : State) : (advancePc s).stack = s.stack := rfl
@[simp] theorem advancePc_keys (s : State) : (advancePc s).keys = s.keys := rfl
@[simp] theorem advancePc_fb (s : State) : (advancePc s).fb = s.fb := rfl
@[simp] theorem advancePc_needsRedraw (s : State) : (advancePc s).needsRedraw = s.needsRedraw := rfl
@[simp] theorem advancePc_running (s : State) : (advancePc s).running = s.running := rfl
@[simp] theorem advancePc_quirkShift (s : State) : (advancePc s).quirkShift = s.quirkShift := rfl
@[simp] theorem advancePc_quirkLoad (s : State) : (advancePc s).quirkLoad = s.quirkLoad := rfl
@[simp] theorem advancePc_mem (s : State) : (advancePc s).mem = s.mem := rfl
@[simp] theorem advancePc_draws (s : State) : (advancePc s).draws = s.draws := rfl

/-! ## `rewindPc` -/

@[simp] theorem rewindPc_v (s : State) : (rewindPc s).v = s.v := rfl
@[simp] theorem rewindPc_pc (s : State) : (rewindPc s).pc = s.pc - 2 := rfl
@[simp] theorem rewindPc_index (s : State) : (rewindPc s).index = s.index := rfl
@[simp] theorem rewindPc_dt (s : State) : (rewindPc s).dt = s.dt := rfl
@[simp] theorem rewindPc_st (s : State) : (rewindPc s).st = s.st := rfl
@[simp] theorem rewindPc_sp (s : State) : (rewindPc s).sp = s.sp := rfl
@[simp] theorem rewindPc_stack (s : State) : (rewindPc s).stack = s.stack := rfl
@[simp] theorem rewindPc_keys (s : State) : (rewindPc s).keys = s.keys := rfl
@[simp] theorem rewindPc_fb (s : State) : (rewindPc s).fb = s.fb := rfl
@[simp] theorem rewindPc_needsRedraw (s : State) : (rewindPc s).needsRedraw = s.needsRedraw := rfl
@[simp] theorem rewindPc_running (s : State) : (rewindPc s).running = s.running := rfl
@[simp] theorem rewindPc_quirkShift (s : State) : (rewindPc s).quirkShift = s.quirkShift := rfl
@[simp] theorem rewindPc_quirkLoad (s : State) : (rewindPc s).quirkLoad = s.quirkLoad := rfl
@[simp] theorem rewindPc_mem (s : State) : (rewindPc s).mem = s.mem := rfl
@[simp] theorem rewindPc_draws (s : State) : (rewindPc s).draws = s.draws := rfl

/-! ## `setPc` -/

@[simp] theorem setPc_v (s : State) (a : Word) : (setPc s a).v = s.v := rfl
@[simp] theorem setPc_pc (s : State) (a : Word) : (setPc s a).pc = a := rfl
@[simp] theorem setPc_index (s : State) (a : Word) : (setPc s a).index = s.index := rfl
@[simp] theorem setPc_dt (s : State) (a : Word) : (setPc s a).dt = s.dt := rfl
@[simp] theorem setPc_st (s : State) (a : Word) : (setPc s a).st = s.st := rfl
@[simp] theorem setPc_sp (s : State) (a : Word) : (setPc s a).sp = s.sp := rfl
@[simp] theorem setPc_stack (s : State) (a : Word) : (setPc s a).stack = s.stack := rfl
@[simp] theorem setPc_keys (s : State) (a : Word) : (setPc s a).keys = s.keys := rfl
@[simp] theorem setPc_fb (s : State) (a : Word) : (setPc s a).fb = s.fb := rfl
@[simp] theorem setPc_needsRedraw (s : State) (a : Word) : (setPc s a).needsRedraw = s.needsRedraw := rfl
@[simp] theorem setPc_running (s : State) (a : Word) : (setPc s a).running = s.running := rfl
@[simp] theorem setPc_quirkShift (s : State) (a : Word) : (setPc s a).quirkShift = s.quirkShift := rfl
@[simp] theorem setPc_quirkLoad (s : State) (a : Word) : (setPc s a).quirkLoad = s.quirkLoad := rfl
@[simp] theorem setPc_mem (s : State) (a : Word) : (setPc s a).mem = s.mem := rfl
@[simp] theorem setPc_draws (s : State) (a : Word) : (setPc s a).draws = s.draws := rfl

/-! ## `setIndex` -/

@[simp] theorem setIndex_v (s : State) (a : Word) : (setIndex s a).v = s.v := rfl
@[simp] theorem setIndex_pc (s : State) (a : Word) : (setIndex s a).pc = s.pc := rfl
@[simp] theorem setIndex_index (s : State) (a : Word) : (setIndex s a).index = a := rfl
@[simp] theorem setIndex_dt (s : State) (a : Word) : (setIndex s a).dt = s.dt := rfl
@[simp] theorem setIndex_st (s : State) (a : Word) : (setIndex s a).st = s.st := rfl
@[simp] theorem setIndex_sp (s : State) (a : Word) : (setIndex s a).sp = s.sp := rfl
@[simp] theorem setIndex_stack (s : State) (a : Word) : (setIndex s a).stack = s.stack := rfl
@[simp] theorem setIndex_keys (s : State) (a : Word) : (setIndex s a).keys = s.keys := rfl
@[simp] theorem setIndex_fb (s : State) (a : Word) : (setIndex s a).fb = s.fb := rfl
@[simp] theorem setIndex_needsRedraw (s : State) (a : Word) : (setIndex s a).needsRedraw = s.needsRedraw := rfl
@[simp] theorem setIndex_running (s : State) (a : Word) : (setIndex s a).running = s.running := rfl
@[simp] theorem setIndex_quirkShift (s : State) (a : Word) : (setIndex s a).quirkShift = s.quirkShift := rfl
@[simp] theorem setIndex_quirkLoad (s : State) (a : Word) : (setIndex s a).quirkLoad = s.quirkLoad := rfl
@[simp] theorem setIndex_mem (s : State) (a : Word) : (setIndex s a).mem = s.mem := rfl
@[simp] theorem setIndex_draws (s : State) (a : Word) : (setIndex s a).draws = s.draws := rfl

/-! ## `stackWrite` -/

@[simp] theorem stackWrite_v (s : State) (i : Nat) (a : Word) : (stackWrite s i a).v = s.v := rfl
@[simp] theorem stackWrite_pc (s : State) (i : Nat) (a : Word) : (stackWrite s i a).pc = s.pc := rfl
@[simp] theorem stackWrite_index (s : State) (i : Nat) (a : Word) : (stackWrite s i a).index = s.index := rfl
@[simp] theorem stackWrite_dt (s : State) (i : Nat) (a : Word) : (stackWrite s i a).dt = s.dt := rfl
@[simp] theorem stackWrite_st (s : State) (i : Nat) (a : Word) : (stackWrite s i a).st = s.st := rfl
@[simp] theorem stackWrite_sp (s : State) (i : Nat) (a : Word) : (stackWrite s i a).sp = s.sp := rfl
@[simp] theorem stackWrite_stack (s : State) (i : Nat) (a : Word) : (stackWrite s i a).stack = s.stack.setIfInBounds i a := rfl
@[simp] theorem stackWrite_keys (s : State) (i : Nat) (a : Word) : (stackWrite s i a).keys = s.keys := rfl
@[simp] theorem stackWrite_fb (s : State) (i : Nat) (a : Word) : (stackWrite s i a).fb = s.fb := rfl
@[simp] theorem stackWrite_needsRedraw (s : State) (i : Nat) (a : Word) : (stackWrite s i a).needsRedraw = s.needsRedraw := rfl
@[simp] theorem stackWrite_running (s : State) (i : Nat) (a : Word) : (stackWrite s i a).running = s.running := rfl
@[simp] theorem stackWrite_quirkShift (s : State) (i : Nat) (a : Word) : (stackWrite s i a).quirkShift = s.quirkShift := rfl
@[simp] theorem stackWrite_quirkLoad (s : State) (i : Nat) (a : Word) : (stackWrite s i a).quirkLoad = s.quirkLoad := rfl
@[simp] theorem stackWrite_mem (s : State) (i : Nat) (a : Word) : (stackWrite s i a).mem = s.mem := rfl
@[simp] theorem stackWrite_draws (s : State) (i : Nat) (a : Word) : (stackWrite s i a).draws = s.draws := rfl

/-! ## `setSp` -/

@[simp] theorem setSp_v (s : State) (n : Nat) : (setSp s n).v = s.v := rfl
@[simp] theorem setSp_pc (s : State) (n : Nat) : (setSp s n).pc = s.pc := rfl
@[simp] theorem setSp_index (s : State) (n : Nat) : (setSp s n).index = s.index := rfl
@[simp] theorem setSp_dt (s : State) (n : Nat) : (setSp s n).dt = s.dt := rfl
@[simp] theorem setSp_st (s : State) (n : Nat) : (setSp s n).st = s.st := rfl
@[simp] theorem setSp_sp (s : State) (n : Nat) : (setSp s n).sp = Fin.ofNat 17 n := rfl
@[simp] theorem setSp_stack (s : State) (n : Nat) : (setSp s n).stack = s.stack := rfl
@[simp] theorem setSp_keys (s : State) (n : Nat) : (setSp s n).keys = s.keys := rfl
@[simp] theorem setSp_fb (s : State) (n : Nat) : (setSp s n).fb = s.fb := rfl
@[simp] theorem setSp_needsRedraw (s : State) (n : Nat) : (setSp s n).needsRedraw = s.needsRedraw := rfl
@[simp] theorem setSp_running (s : State) (n : Nat) : (setSp s n).running = s.running := rfl
@[simp] theorem setSp_quirkShift (s : State) (n : Nat) : (setSp s n).quirkShift = s.quirkShift := rfl
@[simp] theorem setSp_quirkLoad (s : State) (n : Nat) : (setSp s n).quirkLoad = s.quirkLoad := rfl
@[simp] theorem setSp_mem (s : State) (n : Nat) : (setSp s n).mem = s.mem := rfl
@[simp] theorem setSp_draws (s : State) (n : Nat) : (setSp s n).draws = s.draws := rfl

/-! ## `redraw` -/

@[simp] theorem redraw_v (s : State) (fb : FrameBuffer) : (redraw s fb).v = s.v := rfl
@[simp] theorem redraw_pc (s : State) (fb : FrameBuffer) : (redraw s fb).pc = s.pc := rfl
@[simp] theorem redraw_index (s : State) (fb : FrameBuffer) : (redraw s fb).index = s.index := rfl
@[simp] theorem redraw_dt (s : State) (fb : FrameBuffer) : (redraw s fb).dt = s.dt := rfl
@[simp] theorem redraw_st (s : State) (fb : FrameBuffer) : (redraw s fb).st = s.st := rfl
@[simp] theorem redraw_sp (s : State) (fb : FrameBuffer) : (redraw s fb).sp = s.sp := rfl
@[simp] theorem redraw_stack (s : State) (fb : FrameBuffer) : (redraw s fb).stack = s.stack := rfl
@[simp] theorem redraw_keys (s : State) (fb : FrameBuffer) : (redraw s fb).keys = s.keys := rfl
@[simp] theorem redraw_fb (s : State) (fb : FrameBuffer) : (redraw s fb).fb = fb := rfl
@[simp] theorem redraw_needsRedraw (s : State) (fb : FrameBuffer) : (redraw s fb).needsRedraw = true := rfl
@[simp] theorem redraw_running (s : State) (fb : FrameBuffer) : (redraw s fb).running = s.running := rfl
@[simp] theorem redraw_quirkShift (s : State) (fb : FrameBuffer) : (redraw s fb).quirkShift = s.quirkShift := rfl
@[simp] theorem redraw_quirkLoad (s : State) (fb : FrameBuffer) : (redraw s fb).quirkLoad = s.quirkLoad := rfl
@[simp] theorem redraw_mem (s : State) (fb : FrameBuffer) : (redraw s fb).mem = s.mem := rfl
@[simp] theorem redraw_draws (s : State) (fb : FrameBuffer) : (redraw s fb).draws = s.draws := rfl

/-! ## `countDraw` -/

@[simp] theorem countDraw_v (s : State) : (countDraw s).v = s.v := rfl
@[simp] theorem countDraw_pc (s : State) : (countDraw s).pc = s.pc := rfl
@[simp] theorem countDraw_index (s : State) : (countDraw s).index = s.index := rfl
@[simp] theorem countDraw_dt (s : State) : (countDraw s).dt = s.dt := rfl
@[simp] theorem countDraw_st (s : State) : (countDraw s).st = s.st := rfl
@[simp] theorem countDraw_sp (s : State) : (countDraw s).sp = s.sp := rfl
@[simp] theorem countDraw_stack (s : State) : (countDraw s).stack = s.stack := rfl
@[simp] theorem countDraw_keys (s : State) : (countDraw s).keys = s.keys := rfl
@[simp] theorem countDraw_fb (s : State) : (countDraw s).fb = s.fb := rfl
@[simp] theorem countDraw_needsRedraw (s : State) : (countDraw s).needsRedraw = s.needsRedraw := rfl
@[simp] theorem countDraw_running (s : State) : (countDraw s).running = s.running := rfl
@[simp] theorem countDraw_quirkShift (s : State) : (countDraw s).quirkShift = s.quirkShift := rfl
@[simp] theorem countDraw_quirkLoad (s : State) : (countDraw s).quirkLoad = s.quirkLoad := rfl
@[simp] theorem countDraw_mem (s : State) : (countDraw s).mem = s.mem := rfl
@[simp] theorem countDraw_draws (s : State) : (countDraw s).draws = s.draws + 1 := rfl

/-! ## `skipIf` and `advanceIndex` -/

@[simp] theorem skipIf_v (c : Bool) (s : State) : (skipIf c s).v = s.v := by cases c <;> rfl
@[simp] theorem skipIf_index (c : Bool) (s : State) : (skipIf c s).index = s.index := by cases c <;> rfl
@[simp] theorem skipIf_dt (c : Bool) (s : State) : (skipIf c s).dt = s.dt := by cases c <;> rfl
@[simp] theorem skipIf_st (c : Bool) (s : State) : (skipIf c s).st = s.st := by cases c <;> rfl
@[simp] theorem skipIf_sp (c : Bool) (s : State) : (skipIf c s).sp = s.sp := by cases c <;> rfl
@[simp] theorem skipIf_stack (c : Bool) (s : State) : (skipIf c s).stack = s.stack := by cases c <;> rfl
@[simp] theorem skipIf_keys (c : Bool) (s : State) : (skipIf c s).keys = s.keys := by cases c <;> rfl
@[simp] theorem skipIf_fb (c : Bool) (s : State) : (skipIf c s).fb = s.fb := by cases c <;> rfl
@[simp] theorem skipIf_needsRedraw (c : Bool) (s : State) : (skipIf c s).needsRedraw = s.needsRedraw := by cases c <;> rfl
@[simp] theorem skipIf_running (c : Bool) (s : State) : (skipIf c s).running = s.running := by cases c <;> rfl
@[simp] theorem skipIf_quirkShift (c : Bool) (s : State) : (skipIf c s).quirkShift = s.quirkShift := by cases c <;> rfl
@[simp] theorem skipIf_quirkLoad (c : Bool) (s : State) : (skipIf c s).quirkLoad = s.quirkLoad := by cases c <;> rfl
@[simp] theorem skipIf_mem (c : Bool) (s : State) : (skipIf c s).mem = s.mem := by cases c <;> rfl
@[simp] theorem skipIf_draws (c : Bool) (s : State) : (skipIf c s).draws = s.draws := by cases c <;> rfl

@[simp] theorem advanceIndex_v (s : State) (x : RegIdx) : (advanceIndex s x).v = s.v := by
  unfold advanceIndex; split <;> rfl
@[simp] theorem advanceIndex_pc (s : State) (x : RegIdx) : (advanceIndex s x).pc = s.pc := by
  unfold advanceIndex; split <;> rfl
@[simp] theorem advanceIndex_dt (s : State) (x : RegIdx) : (advanceIndex s x).dt = s.dt := by
  unfold advanceIndex; split <;> rfl
@[simp] theorem advanceIndex_st (s : State) (x : RegIdx) : (advanceIndex s x).st = s.st := by
  unfold advanceIndex; split <;> rfl
@[simp] theorem advanceIndex_sp (s : State) (x : RegIdx) : (advanceIndex s x).sp = s.sp := by
  unfold advanceIndex; split <;> rfl
@[simp] theorem advanceIndex_stack (s : State) (x : RegIdx) : (advanceIndex s x).stack = s.stack := by
  unfold advanceIndex; split <;> rfl
@[simp] theorem advanceIndex_keys (s : State) (x : RegIdx) : (advanceIndex s x).keys = s.keys := by
  unfold advanceIndex; split <;> rfl
@[simp] theorem advanceIndex_fb (s : State) (x : RegIdx) : (advanceIndex s x).fb = s.fb := by
  unfold advanceIndex; split <;> rfl
@[simp] theorem advanceIndex_needsRedraw (s : State) (x : RegIdx) : (advanceIndex s x).needsRedraw = s.needsRedraw := by
  unfold advanceIndex; split <;> rfl
@[simp] theorem advanceIndex_running (s : State) (x : RegIdx) : (advanceIndex s x).running = s.running := by
  unfold advanceIndex; split <;> rfl
@[simp] theorem advanceIndex_quirkShift (s : State) (x : RegIdx) : (advanceIndex s x).quirkShift = s.quirkShift := by
  unfold advanceIndex; split <;> rfl
@[simp] theorem advanceIndex_quirkLoad (s : State) (x : RegIdx) : (advanceIndex s x).quirkLoad = s.quirkLoad := by
  unfold advanceIndex; split <;> rfl
@[simp] theorem advanceIndex_mem (s : State) (x : RegIdx) : (advanceIndex s x).mem = s.mem := by
  unfold advanceIndex; split <;> rfl
@[simp] theorem advanceIndex_draws (s : State) (x : RegIdx) : (advanceIndex s x).draws = s.draws := by
  unfold advanceIndex; split <;> rfl

/-! ## `writeRegs` changes no field but the registers -/

@[simp] theorem writeRegs_pc (bs : List Byte) (s : State) (i : Nat) : (writeRegs s i bs).pc = s.pc := by
  induction bs generalizing s i with
  | nil => rfl
  | cons b bs ih => exact ih _ _
@[simp] theorem writeRegs_index (bs : List Byte) (s : State) (i : Nat) : (writeRegs s i bs).index = s.index := by
  induction bs generalizing s i with
  | nil => rfl
  | cons b bs ih => exact ih _ _
@[simp] theorem writeRegs_dt (bs : List Byte) (s : State) (i : Nat) : (writeRegs s i bs).dt = s.dt := by
  induction bs generalizing s i with
  | nil => rfl
  | cons b bs ih => exact ih _ _
@[simp] theorem writeRegs_st (bs : List Byte) (s : State) (i : Nat) : (writeRegs s i bs).st = s.st := by
  induction bs generalizing s i with
  | nil => rfl
  | cons b bs ih => exact ih _ _
@[simp] theorem writeRegs_sp (bs : List Byte) (s : State) (i : Nat) : (writeRegs s i bs).sp = s.sp := by
  induction bs generalizing s i with
  | nil => rfl
  | cons b bs ih => exact ih _ _
@[simp] theorem writeRegs_stack (bs : List Byte) (s : State) (i : Nat) : (writeRegs s i bs).stack = s.stack := by
  induction bs generalizing s i with
  | nil => rfl
  | cons b bs ih => exact ih _ _
@[simp] theorem writeRegs_keys (bs : List Byte) (s : State) (i : Nat) : (writeRegs s i bs).keys = s.keys := by
  induction bs generalizing s i with
  | nil => rfl
  | cons b bs ih => exact ih _ _
@[simp] theorem writeRegs_fb (bs : List Byte) (s : State) (i : Nat) : (writeRegs s i bs).fb = s.fb := by
  induction bs generalizing s i with
  | nil => rfl
  | cons b bs ih => exact ih _ _
@[simp] theorem writeRegs_needsRedraw (bs : List Byte) (s : State) (i : Nat) : (writeRegs s i bs).needsRedraw = s.needsRedraw := by
  induction bs generalizing s i with
  | nil => rfl
  | cons b bs ih => exact ih _ _
@[simp] theorem writeRegs_running (bs : List Byte) (s : State) (i : Nat) : (writeRegs s i bs).running = s.running := by
  induction bs generalizing s i with
  | nil => rfl
  | cons b bs ih => exact ih _ _
@[simp] theorem writeRegs_quirkShift (bs : List Byte) (s : State) (i : Nat) : (writeRegs s i bs).quirkShift = s.quirkShift := by
  induction bs generalizing s i with
  | nil => rfl
  | cons b bs ih => exact ih _ _
@[simp] theorem writeRegs_quirkLoad (bs : List Byte) (s : State) (i : Nat) : (writeRegs s i bs).quirkLoad = s.quirkLoad := by
  induction bs generalizing s i with
  | nil => rfl
  | cons b bs ih => exact ih _ _
@[simp] theorem writeRegs_mem (bs : List Byte) (s : State) (i : Nat) : (writeRegs s i bs).mem = s.mem := by
  induction bs generalizing s i with
  | nil => rfl
  | cons b bs ih => exact ih _ _
@[simp] theorem writeRegs_draws (bs : List Byte) (s : State) (i : Nat) : (writeRegs s i bs).draws = s.draws := by
  induction bs generalizing s i with
  | nil => rfl
  | cons b bs ih => exact ih _ _

end Sys2Proof.Machine
end

