-- ==== Sys2Proof/Laws/Registers.lean ====
section
/-! SUPPORT. General registers: read after write, what leaves them alone, and the bulk copies
(spec/10_state.md rule R20, spec/46_index_memory.md rules R224, R225). -/

namespace Sys2Proof.Machine

theorem readV_of_v_eq {s t : State} (h : t.v = s.v) (x : RegIdx) : readV t x = readV s x := by
  unfold readV; simp only [h]

@[simp] theorem readV_writeV_same (s : State) (x : RegIdx) (b : Byte) : readV (writeV s x b) x = b := by
  simp [readV, writeV]

theorem readV_writeV_other (s : State) {x y : RegIdx} (b : Byte) (h : y ≠ x) :
    readV (writeV s x b) y = readV s y := by
  have hxy : x.toNat ≠ y.toNat := fun e => h (BitVec.eq_of_toNat_eq e.symm)
  simp [readV, writeV, hxy]

/-- Read after write, both cases at once. -/
theorem readV_writeV (s : State) (x y : RegIdx) (b : Byte) :
    readV (writeV s x b) y = if y = x then b else readV s y := by
  by_cases h : y = x
  · subst h; simp
  · simp [h, readV_writeV_other]

@[simp] theorem readV_advancePc (s : State) (x : RegIdx) : readV (advancePc s) x = readV s x := rfl
@[simp] theorem readV_rewindPc (s : State) (x : RegIdx) : readV (rewindPc s) x = readV s x := rfl
@[simp] theorem readV_setPc (s : State) (a : Word) (x : RegIdx) : readV (setPc s a) x = readV s x := rfl
@[simp] theorem readV_setIndex (s : State) (a : Word) (x : RegIdx) : readV (setIndex s a) x = readV s x := rfl
@[simp] theorem readV_stackWrite (s : State) (i : Nat) (a : Word) (x : RegIdx) :
    readV (stackWrite s i a) x = readV s x := rfl
@[simp] theorem readV_setSp (s : State) (n : Nat) (x : RegIdx) : readV (setSp s n) x = readV s x := rfl
@[simp] theorem readV_redraw (s : State) (fb : FrameBuffer) (x : RegIdx) : readV (redraw s fb) x = readV s x := rfl
@[simp] theorem readV_countDraw (s : State) (x : RegIdx) : readV (countDraw s) x = readV s x := rfl
@[simp] theorem readV_withMem (s : State) (m : Memory) (x : RegIdx) : readV { s with mem := m } x = readV s x := rfl
@[simp] theorem readV_withDt (s : State) (d : Byte) (x : RegIdx) : readV { s with dt := d } x = readV s x := rfl
@[simp] theorem readV_withSt (s : State) (d : Byte) (x : RegIdx) : readV { s with st := d } x = readV s x := rfl
@[simp] theorem readV_skipIf (c : Bool) (s : State) (x : RegIdx) : readV (skipIf c s) x = readV s x :=
  readV_of_v_eq (by simp) x
@[simp] theorem readV_advanceIndex (s : State) (x y : RegIdx) : readV (advanceIndex s x) y = readV s y :=
  readV_of_v_eq (by simp) y

/-- The result register and the flag after a flag-writing instruction (43_alu.md rule R169): the flag wins. -/
theorem readV_writeResultThenFlag (s : State) (x y : RegIdx) (r : Byte) (f : Bool) :
    readV (writeResultThenFlag s x r f) y =
      if y = flagReg then flagByte f else if y = x then r else readV s y := by
  simp [writeResultThenFlag, readV_writeV]

/-- The registers from `i` on hold the bytes, the others are as before. -/
theorem readV_writeRegs (bs : List Byte) (s : State) (i : Nat) (h : i + bs.length ≤ 16) (r : RegIdx) :
    readV (writeRegs s i bs) r =
      if i ≤ r.toNat ∧ r.toNat < i + bs.length then bs.getD (r.toNat - i) 0 else readV s r := by
  induction bs generalizing s i with
  | nil =>
    have : ¬(i ≤ r.toNat ∧ r.toNat < i + ([] : List Byte).length) := by simp
    simp only [writeRegs, if_neg this]
  | cons b bs ih =>
    simp only [List.length_cons] at h ⊢
    rw [writeRegs, ih _ _ (by omega), readV_writeV]
    have hi : (BitVec.ofNat 4 i).toNat = i := by simp; omega
    have hr : r = BitVec.ofNat 4 i ↔ r.toNat = i := by
      rw [← BitVec.toNat_inj, hi]
    by_cases e : r.toNat = i
    · rw [if_neg (by omega), if_pos (hr.2 e), if_pos (by omega), e]; simp
    · by_cases l : i + 1 ≤ r.toNat ∧ r.toNat < i + 1 + bs.length
      · obtain ⟨k, hk⟩ : ∃ k, r.toNat = i + 1 + k := ⟨r.toNat - (i + 1), by omega⟩
        rw [if_pos l, if_pos (by omega), hk]
        rw [show i + 1 + k - (i + 1) = k by omega, show i + 1 + k - i = k + 1 by omega]
        simp
      · rw [if_neg l, if_neg (mt hr.1 e), if_neg (by omega)]

@[simp] theorem readRegs_length (s : State) (n : Nat) : (readRegs s n).length = n := by simp [readRegs]

theorem readRegs_getD (s : State) (n i : Nat) (h : i < n) :
    (readRegs s n).getD i 0 = readV s (BitVec.ofNat 4 i) := by
  simp [readRegs, List.getD_eq_getElem?_getD, h]

end Sys2Proof.Machine
end

