-- ==== Sys2Proof/Laws/Ops.lean ====
section
/-! SUPPORT. One lemma per shared operation that says everything it can do; proofs cite these and unfold nothing. -/

namespace Sys2Proof.Machine

/-! ## Errors -/

theorem raise_eq (f : State → Fault) (s : State) : raise f s = .fault (f s) := rfl

theorem unknownOpcode_surface (w : Word) (s : State) :
    unknownOpcodeUnder .surface w s = .fault (.unknownOpcode w s) := rfl

theorem unknownOpcode_ignore (w : Word) (s : State) : unknownOpcodeUnder .ignore w s = .next s := rfl

/-! ## Checks -/

/-- The access lies in the 4 KB, or moves nothing: the check lets it pass. -/
theorem withRange_ok (s : State) {first count : Nat} (h : count = 0 ∨ first + count ≤ 4096)
    (k : Host.Outcome State Fault Refusal) : withRange s first count k = k := by
  rw [withRange, if_neg (by omega)]

theorem withRange_error (s : State) {first count : Nat} (h0 : 1 ≤ count) (h : 4096 < first + count)
    (k : Host.Outcome State Fault Refusal) :
    withRange s first count k = .fault (.memoryOutOfRange (max first 4096) s) := by
  rw [withRange, if_pos (by omega)]; rfl

/-- The check answers a next state only where the access passes, and then the access's own. -/
theorem withRange_next {s t : State} {first count : Nat} {k : Host.Outcome State Fault Refusal}
    (h : withRange s first count k = .next t) : (count = 0 ∨ first + count ≤ 4096) ∧ k = .next t := by
  unfold withRange at h
  split at h
  · exact absurd h (by simp [raise])
  · next hn => exact ⟨by omega, h⟩

theorem withRange_fault {s : State} {first count : Nat} {t : State} {f : Fault}
    (h : withRange s first count (.next t) = .fault f) :
    1 ≤ count ∧ 4096 < first + count ∧ f = .memoryOutOfRange (max first 4096) s := by
  unfold withRange at h
  split at h
  · next hp =>
    simp only [raise, Host.Outcome.fault.injEq] at h
    exact ⟨hp.1, by omega, h.symm⟩
  · exact absurd h (by simp)

theorem withKey_ok (s : State) {k : Byte} (h : k.toNat ≤ 15) (n : Host.Outcome State Fault Refusal) :
    withKey s k n = n := by rw [withKey, if_neg (by omega)]

theorem withKey_error (s : State) {k : Byte} (h : 15 < k.toNat) (n : Host.Outcome State Fault Refusal) :
    withKey s k n = .fault (.keyIndexOutOfRange k s) := by rw [withKey, if_pos h]; rfl

theorem withKey_next {s t : State} {k : Byte} {n : Host.Outcome State Fault Refusal} (h : withKey s k n = .next t) :
    k.toNat ≤ 15 ∧ n = .next t := by
  unfold withKey at h
  split at h
  · exact absurd h (by simp [raise])
  · next hn => exact ⟨by omega, h⟩

theorem withKey_fault {s t : State} {k : Byte} {f : Fault} (h : withKey s k (.next t) = .fault f) :
    15 < k.toNat ∧ f = .keyIndexOutOfRange k s := by
  unfold withKey at h
  split at h
  · next hp =>
    simp only [raise, Host.Outcome.fault.injEq] at h
    exact ⟨hp, h.symm⟩
  · exact absurd h (by simp)

/-! ## Program counter and index -/

theorem skipIf_pc (c : Bool) (s : State) : (skipIf c s).pc = if c then s.pc + 2 else s.pc := by cases c <;> rfl

theorem advanceIndex_index (s : State) (x : RegIdx) :
    (advanceIndex s x).index = if s.quirkLoad then s.index else s.index + BitVec.ofNat 16 (copyCount x) := by
  unfold advanceIndex; split <;> rfl

/-! ## Return stack -/

theorem stackRead_of_stack_eq {s t : State} (h : t.stack = s.stack) (i : Nat) : stackRead t i = stackRead s i := by
  unfold stackRead; simp only [h]

theorem stackRead_stackWrite (s : State) {i : Nat} (hi : i < 16) (a : Word) (j : Nat) :
    stackRead (stackWrite s i a) j = if j = i then a else stackRead s j := by
  unfold stackRead
  by_cases hj : j < 16
  · by_cases e : j = i
    · subst e; simp [hi]
    · simp [hj, e, Ne.symm e]
  · have : j ≠ i := by omega
    simp [hj, this]

/-! ## Fetch -/

/-- Nothing can be fetched at 4095 and above (60_exceptions.md rule R241). -/
theorem fetch_error (s : State) (h : 4094 < s.pc.toNat) :
    fetch s = .error (.memoryOutOfRange (max s.pc.toNat 4096) s) := by rw [fetch, if_pos (by omega)]

theorem fetch_ok (s : State) (h : s.pc.toNat ≤ 4094) : fetch s = .ok (wordAt s.mem s.pc.toNat, advancePc s) := by
  rw [fetch, if_neg (by omega)]

/-- A step either faults in the fetch or runs the decoded instruction on the advanced state. -/
theorem step_cases (s : State) :
    (4094 < s.pc.toNat ∧ step s = .fault (.memoryOutOfRange (max s.pc.toNat 4096) s)) ∨
    (s.pc.toNat ≤ 4094 ∧ step s = exec (decodeWord (wordAt s.mem s.pc.toNat)) (advancePc s)) := by
  by_cases h : s.pc.toNat ≤ 4094
  · exact .inr ⟨h, by rw [step, fetch_ok s h]⟩
  · exact .inl ⟨by omega, by rw [step, fetch_error s (by omega)]⟩

end Sys2Proof.Machine
end

