-- ==== Sys2Proof/Laws/PerInstr.lean ====
section
/-! SUPPORT. The family of facts proved per instruction, about the instruction as syntax: its word belongs to the row of
the opcode map (spec/30_encoding.md rule R93) that its mnemonic names. -/

namespace Sys2Proof.Laws.EncodeMatchesRow

/-- The opcode map has a row of the instruction's mnemonic, and the row's pattern holds the instruction's word. -/
def Statement (i : Instr) : Prop :=
  ∃ r ∈ opcodeMap, r.mnemonic = mnemonicOf i ∧ rowMatches r (encode i) = true

theorem cls : Statement .cls :=
  ⟨⟨"CLS", 0xFFFF, 0x00E0⟩, by simp [opcodeMap, opcodeRowsLow, opcodeRowsAlu, opcodeRowsHigh], rfl, rfl⟩

theorem ret : Statement .ret :=
  ⟨⟨"RET", 0xFFFF, 0x00EE⟩, by simp [opcodeMap, opcodeRowsLow, opcodeRowsAlu, opcodeRowsHigh], rfl, rfl⟩

theorem sys (nnn : BitVec 12) : Statement (.sys nnn) :=
  ⟨⟨"SYS_nnn", 0xF000, 0x0000⟩, by simp [opcodeMap, opcodeRowsLow, opcodeRowsAlu, opcodeRowsHigh], rfl, by simp [rowMatches, encode]; decide⟩

theorem jp (nnn : BitVec 12) : Statement (.jp nnn) :=
  ⟨⟨"JP_nnn", 0xF000, 0x1000⟩, by simp [opcodeMap, opcodeRowsLow, opcodeRowsAlu, opcodeRowsHigh], rfl, by simp [rowMatches, encode]; decide⟩

theorem call (nnn : BitVec 12) : Statement (.call nnn) :=
  ⟨⟨"CALL_nnn", 0xF000, 0x2000⟩, by simp [opcodeMap, opcodeRowsLow, opcodeRowsAlu, opcodeRowsHigh], rfl, by simp [rowMatches, encode]; decide⟩

theorem seImm (x : RegIdx) (nn : Byte) : Statement (.seImm x nn) :=
  ⟨⟨"SE_Vx__nn", 0xF000, 0x3000⟩, by simp [opcodeMap, opcodeRowsLow, opcodeRowsAlu, opcodeRowsHigh], rfl, by simp [rowMatches, encode]; decide⟩

theorem sneImm (x : RegIdx) (nn : Byte) : Statement (.sneImm x nn) :=
  ⟨⟨"SNE_Vx__nn", 0xF000, 0x4000⟩, by simp [opcodeMap, opcodeRowsLow, opcodeRowsAlu, opcodeRowsHigh], rfl, by simp [rowMatches, encode]; decide⟩

theorem seReg (x : RegIdx) (y : RegIdx) : Statement (.seReg x y) :=
  ⟨⟨"SE_Vx__Vy", 0xF00F, 0x5000⟩, by simp [opcodeMap, opcodeRowsLow, opcodeRowsAlu, opcodeRowsHigh], rfl, by simp [rowMatches, encode]; decide⟩

theorem reserved5 (x : RegIdx) (y : RegIdx) (n : BitVec 4) : Statement (.reserved5 x y n) :=
  ⟨⟨"RESERVED_5xyn", 0xF000, 0x5000⟩, by simp [opcodeMap, opcodeRowsLow, opcodeRowsAlu, opcodeRowsHigh], rfl, by simp [rowMatches, encode]; decide⟩

theorem ldImm (x : RegIdx) (nn : Byte) : Statement (.ldImm x nn) :=
  ⟨⟨"LD_Vx__nn", 0xF000, 0x6000⟩, by simp [opcodeMap, opcodeRowsLow, opcodeRowsAlu, opcodeRowsHigh], rfl, by simp [rowMatches, encode]; decide⟩

theorem addImm (x : RegIdx) (nn : Byte) : Statement (.addImm x nn) :=
  ⟨⟨"ADD_Vx__nn", 0xF000, 0x7000⟩, by simp [opcodeMap, opcodeRowsLow, opcodeRowsAlu, opcodeRowsHigh], rfl, by simp [rowMatches, encode]; decide⟩

theorem ldReg (x : RegIdx) (y : RegIdx) : Statement (.ldReg x y) :=
  ⟨⟨"LD_Vx__Vy", 0xF00F, 0x8000⟩, by simp [opcodeMap, opcodeRowsLow, opcodeRowsAlu, opcodeRowsHigh], rfl, by simp [rowMatches, encode]; decide⟩

theorem orReg (x : RegIdx) (y : RegIdx) : Statement (.orReg x y) :=
  ⟨⟨"OR_Vx__Vy", 0xF00F, 0x8001⟩, by simp [opcodeMap, opcodeRowsLow, opcodeRowsAlu, opcodeRowsHigh], rfl, by simp [rowMatches, encode]; decide⟩

theorem andReg (x : RegIdx) (y : RegIdx) : Statement (.andReg x y) :=
  ⟨⟨"AND_Vx__Vy", 0xF00F, 0x8002⟩, by simp [opcodeMap, opcodeRowsLow, opcodeRowsAlu, opcodeRowsHigh], rfl, by simp [rowMatches, encode]; decide⟩

theorem xorReg (x : RegIdx) (y : RegIdx) : Statement (.xorReg x y) :=
  ⟨⟨"XOR_Vx__Vy", 0xF00F, 0x8003⟩, by simp [opcodeMap, opcodeRowsLow, opcodeRowsAlu, opcodeRowsHigh], rfl, by simp [rowMatches, encode]; decide⟩

theorem addReg (x : RegIdx) (y : RegIdx) : Statement (.addReg x y) :=
  ⟨⟨"ADD_Vx__Vy", 0xF00F, 0x8004⟩, by simp [opcodeMap, opcodeRowsLow, opcodeRowsAlu, opcodeRowsHigh], rfl, by simp [rowMatches, encode]; decide⟩

theorem subReg (x : RegIdx) (y : RegIdx) : Statement (.subReg x y) :=
  ⟨⟨"SUB_Vx__Vy", 0xF00F, 0x8005⟩, by simp [opcodeMap, opcodeRowsLow, opcodeRowsAlu, opcodeRowsHigh], rfl, by simp [rowMatches, encode]; decide⟩

theorem shrReg (x : RegIdx) (y : RegIdx) : Statement (.shrReg x y) :=
  ⟨⟨"SHR_Vx__Vy", 0xF00F, 0x8006⟩, by simp [opcodeMap, opcodeRowsLow, opcodeRowsAlu, opcodeRowsHigh], rfl, by simp [rowMatches, encode]; decide⟩

theorem subnReg (x : RegIdx) (y : RegIdx) : Statement (.subnReg x y) :=
  ⟨⟨"SUBN_Vx__Vy", 0xF00F, 0x8007⟩, by simp [opcodeMap, opcodeRowsLow, opcodeRowsAlu, opcodeRowsHigh], rfl, by simp [rowMatches, encode]; decide⟩

theorem shlReg (x : RegIdx) (y : RegIdx) : Statement (.shlReg x y) :=
  ⟨⟨"SHL_Vx__Vy", 0xF00F, 0x800E⟩, by simp [opcodeMap, opcodeRowsLow, opcodeRowsAlu, opcodeRowsHigh], rfl, by simp [rowMatches, encode]; decide⟩

theorem aluNop (x : RegIdx) (y : RegIdx) (n : BitVec 4) : Statement (.aluNop x y n) :=
  ⟨⟨"ALUNOP_x__y__n", 0xF000, 0x8000⟩, by simp [opcodeMap, opcodeRowsLow, opcodeRowsAlu, opcodeRowsHigh], rfl, by simp [rowMatches, encode]; decide⟩

theorem sneReg (x : RegIdx) (y : RegIdx) : Statement (.sneReg x y) :=
  ⟨⟨"SNE_Vx__Vy", 0xF00F, 0x9000⟩, by simp [opcodeMap, opcodeRowsLow, opcodeRowsAlu, opcodeRowsHigh], rfl, by simp [rowMatches, encode]; decide⟩

theorem reserved9 (x : RegIdx) (y : RegIdx) (n : BitVec 4) : Statement (.reserved9 x y n) :=
  ⟨⟨"RESERVED_9xyn", 0xF000, 0x9000⟩, by simp [opcodeMap, opcodeRowsLow, opcodeRowsAlu, opcodeRowsHigh], rfl, by simp [rowMatches, encode]; decide⟩

theorem ldIndex (nnn : BitVec 12) : Statement (.ldIndex nnn) :=
  ⟨⟨"LD_I__nnn", 0xF000, 0xA000⟩, by simp [opcodeMap, opcodeRowsLow, opcodeRowsAlu, opcodeRowsHigh], rfl, by simp [rowMatches, encode]; decide⟩

theorem jpV0 (nnn : BitVec 12) : Statement (.jpV0 nnn) :=
  ⟨⟨"JP_V0__nnn", 0xF000, 0xB000⟩, by simp [opcodeMap, opcodeRowsLow, opcodeRowsAlu, opcodeRowsHigh], rfl, by simp [rowMatches, encode]; decide⟩

theorem rnd (x : RegIdx) (nn : Byte) : Statement (.rnd x nn) :=
  ⟨⟨"RND_Vx__nn", 0xF000, 0xC000⟩, by simp [opcodeMap, opcodeRowsLow, opcodeRowsAlu, opcodeRowsHigh], rfl, by simp [rowMatches, encode]; decide⟩

theorem drw (x : RegIdx) (y : RegIdx) (n : BitVec 4) : Statement (.drw x y n) :=
  ⟨⟨"DRW_Vx__Vy__n", 0xF000, 0xD000⟩, by simp [opcodeMap, opcodeRowsLow, opcodeRowsAlu, opcodeRowsHigh], rfl, by simp [rowMatches, encode]; decide⟩

theorem skp (x : RegIdx) : Statement (.skp x) :=
  ⟨⟨"SKP_Vx", 0xF0FF, 0xE09E⟩, by simp [opcodeMap, opcodeRowsLow, opcodeRowsAlu, opcodeRowsHigh], rfl, by simp [rowMatches, encode]; decide⟩

theorem sknp (x : RegIdx) : Statement (.sknp x) :=
  ⟨⟨"SKNP_Vx", 0xF0FF, 0xE0A1⟩, by simp [opcodeMap, opcodeRowsLow, opcodeRowsAlu, opcodeRowsHigh], rfl, by simp [rowMatches, encode]; decide⟩

theorem reservedE (x : RegIdx) (nn : Byte) : Statement (.reservedE x nn) :=
  ⟨⟨"RESERVED_Exnn", 0xF000, 0xE000⟩, by simp [opcodeMap, opcodeRowsLow, opcodeRowsAlu, opcodeRowsHigh], rfl, by simp [rowMatches, encode]; decide⟩

theorem ldVxDt (x : RegIdx) : Statement (.ldVxDt x) :=
  ⟨⟨"LD_Vx__DT", 0xF0FF, 0xF007⟩, by simp [opcodeMap, opcodeRowsLow, opcodeRowsAlu, opcodeRowsHigh], rfl, by simp [rowMatches, encode]; decide⟩

theorem ldVxKey (x : RegIdx) : Statement (.ldVxKey x) :=
  ⟨⟨"LD_Vx__K", 0xF0FF, 0xF00A⟩, by simp [opcodeMap, opcodeRowsLow, opcodeRowsAlu, opcodeRowsHigh], rfl, by simp [rowMatches, encode]; decide⟩

theorem ldDtVx (x : RegIdx) : Statement (.ldDtVx x) :=
  ⟨⟨"LD_DT__Vx", 0xF0FF, 0xF015⟩, by simp [opcodeMap, opcodeRowsLow, opcodeRowsAlu, opcodeRowsHigh], rfl, by simp [rowMatches, encode]; decide⟩

theorem ldStVx (x : RegIdx) : Statement (.ldStVx x) :=
  ⟨⟨"LD_ST__Vx", 0xF0FF, 0xF018⟩, by simp [opcodeMap, opcodeRowsLow, opcodeRowsAlu, opcodeRowsHigh], rfl, by simp [rowMatches, encode]; decide⟩

theorem addIndex (x : RegIdx) : Statement (.addIndex x) :=
  ⟨⟨"ADD_I__Vx", 0xF0FF, 0xF01E⟩, by simp [opcodeMap, opcodeRowsLow, opcodeRowsAlu, opcodeRowsHigh], rfl, by simp [rowMatches, encode]; decide⟩

theorem ldFont (x : RegIdx) : Statement (.ldFont x) :=
  ⟨⟨"LD_F__Vx", 0xF0FF, 0xF029⟩, by simp [opcodeMap, opcodeRowsLow, opcodeRowsAlu, opcodeRowsHigh], rfl, by simp [rowMatches, encode]; decide⟩

theorem ldBcd (x : RegIdx) : Statement (.ldBcd x) :=
  ⟨⟨"LD_B__Vx", 0xF0FF, 0xF033⟩, by simp [opcodeMap, opcodeRowsLow, opcodeRowsAlu, opcodeRowsHigh], rfl, by simp [rowMatches, encode]; decide⟩

theorem dumpRegs (x : RegIdx) : Statement (.dumpRegs x) :=
  ⟨⟨"LD__I___Vx", 0xF0FF, 0xF055⟩, by simp [opcodeMap, opcodeRowsLow, opcodeRowsAlu, opcodeRowsHigh], rfl, by simp [rowMatches, encode]; decide⟩

theorem loadRegs (x : RegIdx) : Statement (.loadRegs x) :=
  ⟨⟨"LD_Vx___I", 0xF0FF, 0xF065⟩, by simp [opcodeMap, opcodeRowsLow, opcodeRowsAlu, opcodeRowsHigh], rfl, by simp [rowMatches, encode]; decide⟩

theorem reservedF (x : RegIdx) (nn : Byte) : Statement (.reservedF x nn) :=
  ⟨⟨"RESERVED_Fxnn", 0xF000, 0xF000⟩, by simp [opcodeMap, opcodeRowsLow, opcodeRowsAlu, opcodeRowsHigh], rfl, by simp [rowMatches, encode]; decide⟩

end Sys2Proof.Laws.EncodeMatchesRow
end

