-- ==== Sys2Proof/Laws/Screen.lean ====
section
/-! SUPPORT. The frame buffer: read after write by bytes and by pixels, and one sprite row pixel by pixel
(spec/10_state.md rule R35, spec/44_draw.md rules R182, R185, R188). -/

namespace Sys2Proof.Machine

/-! ## Bytes -/

theorem fbRead_fbWrite (fb : FrameBuffer) {r b : Nat} (hr : r < 32) (hb : b < 8) (d : Byte) (r' b' : Nat) :
    fbRead (fbWrite fb r b d) r' b' = if r' = r ∧ b' = b then d else fbRead fb r' b' := by
  unfold fbRead fbWrite
  by_cases h : r' < 32 ∧ b' < 8
  · simp only [dif_pos h, dif_pos hr]
    by_cases er : r' = r
    · subst er
      by_cases eb : b' = b
      · subst eb; simp
      · simp [eb, Ne.symm eb]
    · simp [er, Ne.symm er]
  · have : ¬(r' = r ∧ b' = b) := fun e => h ⟨e.1 ▸ hr, e.2 ▸ hb⟩
    simp [h, this]

@[simp] theorem fbRead_fbClear (r b : Nat) : fbRead fbClear r b = 0 := by
  unfold fbRead fbClear
  split
  · simp
  · rfl

/-- A frame buffer is what its bytes are. -/
theorem fb_ext {f g : FrameBuffer} (h : ∀ r b, r < 32 → b < 8 → fbRead f r b = fbRead g r b) : f = g := by
  apply Vector.ext
  intro r hr
  apply Vector.ext
  intro b hb
  simpa [fbRead, hr, hb] using h r b hr hb

/-! ## Pixels -/

@[simp] theorem pixel_fbClear (r c : Nat) : pixel fbClear r c = false := by simp [pixel]

/-- A frame buffer is what its pixels are. -/
theorem fb_ext_pixel {f g : FrameBuffer} (h : ∀ r c, r < 32 → c < 64 → pixel f r c = pixel g r c) : f = g := by
  refine fb_ext fun r b hr hb => BitVec.eq_of_getLsbD_eq fun i hi => ?_
  have := h r (8 * b + (7 - i)) hr (by omega)
  simp only [pixel] at this
  rwa [show (8 * b + (7 - i)) / 8 = b by omega, show 7 - (8 * b + (7 - i)) % 8 = i by omega] at this

theorem clearedPixel_xor (old d : Byte) :
    clearedPixel old (old ^^^ d) = true ↔ ∃ i, i < 8 ∧ old.getLsbD i = true ∧ d.getLsbD i = true := by
  have e : old &&& ~~~(old ^^^ d) = old &&& d := by
    apply BitVec.eq_of_getLsbD_eq
    intro i hi
    simp only [BitVec.getLsbD_and, BitVec.getLsbD_not, BitVec.getLsbD_xor, hi, decide_true, Bool.true_and]
    cases old.getLsbD i <;> cases d.getLsbD i <;> rfl
  unfold clearedPixel
  rw [e, bne_iff_ne]
  constructor
  · intro h
    by_contra k
    apply h
    apply BitVec.eq_of_getLsbD_eq
    intro i hi
    rw [BitVec.getLsbD_and, show (0 : Byte).getLsbD i = false from BitVec.getLsbD_zero]
    cases ho : old.getLsbD i
    · rfl
    · cases hd : d.getLsbD i
      · rfl
      · exact absurd ⟨i, hi, ho, hd⟩ k
  · rintro ⟨i, hi, ho, hd⟩ z
    have : (old &&& d).getLsbD i = true := by simp [ho, hd]
    rw [z] at this
    simp at this

/-- XOR into one byte, by pixels. -/
theorem pixel_xorByte (fb : FrameBuffer) {row b : Nat} (hr : row < 32) (hb : b < 8) (d : Byte) (r c : Nat) :
    pixel (xorByte fb row b d).1 r c =
      if r = row ∧ c / 8 = b then (pixel fb r c ^^ d.getLsbD (7 - c % 8)) else pixel fb r c := by
  unfold pixel xorByte
  simp only [fbRead_fbWrite fb hr hb]
  split
  · next h => rw [BitVec.getLsbD_xor, h.1, h.2]
  · rfl

/-- XOR into one byte reports a collision exactly when a set bit lands on a set pixel. -/
theorem collides_xorByte (fb : FrameBuffer) (row b : Nat) (d : Byte) :
    (xorByte fb row b d).2 = true ↔
      ∃ i, i < 8 ∧ pixel fb row (8 * b + (7 - i)) = true ∧ d.getLsbD i = true := by
  unfold xorByte
  simp only [clearedPixel_xor]
  constructor
  · rintro ⟨i, hi, ho, hd⟩
    refine ⟨i, hi, ?_, hd⟩
    unfold pixel
    rwa [show (8 * b + (7 - i)) / 8 = b by omega, show 7 - (8 * b + (7 - i)) % 8 = i by omega]
  · rintro ⟨i, hi, ho, hd⟩
    refine ⟨i, hi, ?_, hd⟩
    unfold pixel at ho
    rwa [show (8 * b + (7 - i)) / 8 = b by omega, show 7 - (8 * b + (7 - i)) % 8 = i by omega] at ho

theorem getLsbD_leftPart (d : Byte) (sh i : Nat) : (leftPart d sh).getLsbD i = d.getLsbD (sh + i) := by
  simp [leftPart, BitVec.getLsbD_ushiftRight]

theorem getLsbD_rightPart (d : Byte) (sh i : Nat) (hi : i < 8) :
    (rightPart d sh).getLsbD i = (decide (8 - sh ≤ i) && d.getLsbD (i - (8 - sh))) := by
  simp only [rightPart, BitVec.getLsbD_shiftLeft, hi, decide_true, Bool.true_and]
  by_cases h : i < 8 - sh
  · rw [decide_eq_true h, decide_eq_false (by omega)]; rfl
  · rw [decide_eq_false h, decide_eq_true (by omega)]; rfl

theorem drawRow_skipped (fb : FrameBuffer) {col row : Nat} (h : 31 < row ∨ 56 < col) (d : Byte) :
    drawRow fb col row d = (fb, false) := by rw [drawRow, if_pos h]

/-- One sprite row by pixels: the eight columns are XORed with the sprite bits, leftmost first, nothing else. -/
theorem pixel_drawRow (fb : FrameBuffer) {col row : Nat} (hr : row ≤ 31) (hc : col ≤ 56) (d : Byte) (r c : Nat) :
    pixel (drawRow fb col row d).1 r c =
      if r = row ∧ col ≤ c ∧ c < col + 8 then (pixel fb r c ^^ d.getLsbD (7 - (c - col))) else pixel fb r c := by
  have hr' : row < 32 := by omega
  have hs : col % 8 < 8 := Nat.mod_lt _ (by omega)
  rw [drawRow, if_neg (by omega)]
  split
  · next h0 =>
    rw [pixel_xorByte fb hr' (by omega)]
    by_cases hin : r = row ∧ col ≤ c ∧ c < col + 8
    · rw [if_pos hin, if_pos ⟨hin.1, by omega⟩, show c % 8 = c - col by omega]
    · rw [if_neg hin, if_neg fun k => hin ⟨k.1, by omega, by omega⟩]
  · next h0 =>
    simp only
    rw [pixel_xorByte _ hr' (by omega), pixel_xorByte fb hr' (by omega)]
    by_cases hrow : r = row
    · by_cases hL : c / 8 = col / 8
      · rw [if_neg (by omega), if_pos ⟨hrow, hL⟩, getLsbD_leftPart]
        by_cases hin : col ≤ c
        · rw [if_pos ⟨hrow, hin, by omega⟩, show col % 8 + (7 - c % 8) = 7 - (c - col) by omega]
        · rw [if_neg (by omega), BitVec.getLsbD_of_ge d _ (by omega), Bool.xor_false]
      · by_cases hR : c / 8 = col / 8 + 1
        · rw [if_pos ⟨hrow, hR⟩, if_neg (by omega), getLsbD_rightPart d (col % 8) _ (by omega)]
          by_cases hin : c < col + 8
          · rw [if_pos ⟨hrow, by omega, hin⟩, decide_eq_true (by omega), Bool.true_and,
              show 7 - c % 8 - (8 - col % 8) = 7 - (c - col) by omega]
          · rw [if_neg (by omega), decide_eq_false (by omega), Bool.false_and, Bool.xor_false]
        · rw [if_neg (by omega), if_neg (by omega), if_neg (by omega)]
    · rw [if_neg (by tauto), if_neg (by tauto), if_neg (by tauto)]

/-- One sprite row collides exactly when one of its set bits lands on a set pixel (rule R185). -/
theorem collides_drawRow (fb : FrameBuffer) {col row : Nat} (hr : row ≤ 31) (hc : col ≤ 56) (d : Byte) :
    (drawRow fb col row d).2 = true ↔
      ∃ j, j < 8 ∧ pixel fb row (col + j) = true ∧ d.getLsbD (7 - j) = true := by
  have hr' : row < 32 := by omega
  have hs : col % 8 < 8 := Nat.mod_lt _ (by omega)
  rw [drawRow, if_neg (by omega)]
  split
  · next h0 =>
    rw [collides_xorByte]
    constructor
    · rintro ⟨i, hi, hp, hd⟩
      exact ⟨7 - i, by omega, by rwa [show col + (7 - i) = 8 * (col / 8) + (7 - i) by omega],
        by rwa [show 7 - (7 - i) = i by omega]⟩
    · rintro ⟨j, hj, hp, hd⟩
      exact ⟨7 - j, by omega, by rwa [show 8 * (col / 8) + (7 - (7 - j)) = col + j by omega], hd⟩
  · next h0 =>
    simp only [Bool.or_eq_true]
    rw [collides_xorByte, collides_xorByte]
    constructor
    · rintro (⟨i, hi, hp, hd⟩ | ⟨i, hi, hp, hd⟩)
      · rw [getLsbD_leftPart] at hd
        have : col % 8 + i < 8 := by
          by_contra k
          rw [BitVec.getLsbD_of_ge d _ (by omega)] at hd
          exact absurd hd (by simp)
        exact ⟨7 - (col % 8 + i), by omega,
          by rwa [show col + (7 - (col % 8 + i)) = 8 * (col / 8) + (7 - i) by omega],
          by rwa [show 7 - (7 - (col % 8 + i)) = col % 8 + i by omega]⟩
      · rw [pixel_xorByte fb hr' (by omega), if_neg (by omega)] at hp
        rw [getLsbD_rightPart d (col % 8) i hi, Bool.and_eq_true, decide_eq_true_eq] at hd
        exact ⟨15 - col % 8 - i, by omega,
          by rwa [show col + (15 - col % 8 - i) = 8 * (col / 8 + 1) + (7 - i) by omega],
          by rw [show 7 - (15 - col % 8 - i) = i - (8 - col % 8) by omega]; exact hd.2⟩
    · rintro ⟨j, hj, hp, hd⟩
      by_cases hside : col % 8 + j < 8
      · left
        refine ⟨7 - (col % 8 + j), by omega,
          by rwa [show 8 * (col / 8) + (7 - (7 - (col % 8 + j))) = col + j by omega], ?_⟩
        rw [getLsbD_leftPart, show col % 8 + (7 - (col % 8 + j)) = 7 - j by omega]
        exact hd
      · right
        refine ⟨15 - col % 8 - j, by omega, ?_, ?_⟩
        · rw [pixel_xorByte fb hr' (by omega), if_neg (by omega),
            show 8 * (col / 8 + 1) + (7 - (15 - col % 8 - j)) = col + j by omega]
          exact hp
        · rw [getLsbD_rightPart d (col % 8) _ (by omega), decide_eq_true (by omega), Bool.true_and,
            show 15 - col % 8 - j - (8 - col % 8) = 7 - j by omega]
          exact hd

end Sys2Proof.Machine
end

