-- ==== Sys2Proof/Tests/Slice0.lean ====
section
/-! SUPPORT. The author's own checks: ill-formed terms refused, words decoded, single cycles from the vectors of
spec/95_test_vectors.md, and for every obligation with hypotheses a state that meets them all. -/

namespace Sys2Proof.Tests

open Sys2Proof Sys2Proof.Machine

/-! ## Builders -/

/-- The reset state with some registers set. -/
def regs (l : List (RegIdx × Byte)) : State := l.foldl (fun s p => writeV s p.1 p.2) State.reset

/-- A word where the next fetch finds it. -/
def atPc (w : Word) (s : State) : State := s.withFetchWord 16 w.toNat

/-- Bytes stored at 0x300, and `I` there. -/
def withBytes (bs : List Byte) (s : State) : State := { s with index := 0x300, mem := storeBytes s.mem 0x300 bs }

/-- What a completing cycle shows. -/
def after {α : Type} (s : State) (f : State → α) : Option α :=
  match step s with
  | .next t => some (f t)
  | .fault _ => none
  | .refused _ => none

/-- The code and the recorded value of an error, and the `pc` of the state left. -/
def errorOf (s : State) : Option (Nat × Option Nat × Word) :=
  match step s with
  | .next _ => none
  | .fault f => some (errorCode f, recordedValue f, (stateLeft f).pc)
  | .refused _ => none

/-- `exec` answers a next state. -/
def completes (i : Instr) (s : State) : Bool :=
  match exec i s with
  | .next _ => true
  | .fault _ => false
  | .refused _ => false

/-- The eight bytes of a frame-buffer row. -/
def rowOf (s : State) (r : Nat) : List Byte := (List.range 8).map (fbRead s.fb r)

/-- A sprite at 0x300, its column and row in `V0` and `V1`, `VF` = 7. -/
def sprite (x y : Byte) (bs : List Byte) : State := withBytes bs (regs [(0, x), (1, y), (15, 7)])

/-! ## Ill-formed terms are refused (30_encoding.md rules R94 to R96) -/

theorem test_illformed_sys_is_cls : (Instr.sys 0x0E0).wellFormed = false := by decide
theorem test_illformed_sys_is_ret : (Instr.sys 0x0EE).wellFormed = false := by decide
theorem test_illformed_reserved5 : (Instr.reserved5 1 2 0).wellFormed = false := by decide
theorem test_illformed_reserved9 : (Instr.reserved9 1 2 0).wellFormed = false := by decide
theorem test_illformed_aluNop : (Instr.aluNop 1 2 0x4).wellFormed = false ∧ (Instr.aluNop 1 2 0xE).wellFormed = false := by
  decide
theorem test_illformed_reservedE :
    (Instr.reservedE 1 0x9E).wellFormed = false ∧ (Instr.reservedE 1 0xA1).wellFormed = false := by decide
theorem test_illformed_reservedF : ∀ nn ∈ miscOperations, (Instr.reservedF 1 nn).wellFormed = false := by decide

/-! ## Words written out from the encodings of rule R93 -/

theorem test_decode_system :
    decodeWord 0b0000000011100000 = .cls ∧ decodeWord 0b0000000011101110 = .ret ∧
    decodeWord 0b0000000111100000 = .sys 0x1E0 ∧ decodeWord 0b0001001000110100 = .jp 0x234 ∧
    decodeWord 0b0010001100000000 = .call 0x300 ∧ decodeWord 0b1011001000010000 = .jpV0 0x210 := by decide
theorem test_decode_skip :
    decodeWord 0b0011001100101010 = .seImm 3 0x2A ∧ decodeWord 0b0100001100101010 = .sneImm 3 0x2A ∧
    decodeWord 0b0101000100100000 = .seReg 1 2 ∧ decodeWord 0b1001000100100000 = .sneReg 1 2 := by decide
theorem test_decode_immediate :
    decodeWord 0b0110111110101011 = .ldImm 0xF 0xAB ∧ decodeWord 0b0111001000000101 = .addImm 2 0x05 ∧
    decodeWord 0b1010001011110000 = .ldIndex 0x2F0 ∧ decodeWord 0b1100001100001111 = .rnd 3 0x0F := by decide
theorem test_decode_alu_low :
    decodeWord 0b1000000100100000 = .ldReg 1 2 ∧ decodeWord 0b1000000100100001 = .orReg 1 2 ∧
    decodeWord 0b1000000100100010 = .andReg 1 2 ∧ decodeWord 0b1000000100100011 = .xorReg 1 2 ∧
    decodeWord 0b1000000100100100 = .addReg 1 2 := by decide
theorem test_decode_alu_high :
    decodeWord 0b1000000100100101 = .subReg 1 2 ∧ decodeWord 0b1000000100100110 = .shrReg 1 2 ∧
    decodeWord 0b1000000100100111 = .subnReg 1 2 ∧ decodeWord 0b1000000100101110 = .shlReg 1 2 ∧
    decodeWord 0b1000000100101000 = .aluNop 1 2 0x8 ∧ decodeWord 0b1000000100101111 = .aluNop 1 2 0xF := by decide
theorem test_decode_draw : decodeWord 0b1101000000010101 = .drw 0 1 5 := by decide
theorem test_decode_keypad_timer :
    decodeWord 0b1110010010011110 = .skp 4 ∧ decodeWord 0b1110010010100001 = .sknp 4 ∧
    decodeWord 0b1111001000000111 = .ldVxDt 2 ∧ decodeWord 0b1111001000001010 = .ldVxKey 2 ∧
    decodeWord 0b1111001000010101 = .ldDtVx 2 ∧ decodeWord 0b1111001000011000 = .ldStVx 2 := by decide
theorem test_decode_index_memory :
    decodeWord 0b1111000100011110 = .addIndex 1 ∧ decodeWord 0b1111001100101001 = .ldFont 3 ∧
    decodeWord 0b1111001000110011 = .ldBcd 2 ∧ decodeWord 0b1111001001010101 = .dumpRegs 2 ∧
    decodeWord 0b1111001001100101 = .loadRegs 2 := by decide
theorem test_decode_reserved :
    decodeWord 0b0101000100100001 = .reserved5 1 2 1 ∧ decodeWord 0b1001000100101111 = .reserved9 1 2 0xF ∧
    decodeWord 0b1110010010011111 = .reservedE 4 0x9F ∧ decodeWord 0b1111000101110101 = .reservedF 1 0x75 := by decide
/-- Fewer than two bytes hold no instruction; the bytes after one are handed back. -/
theorem test_decode_bytes :
    decode [] = .error .truncated ∧ decode [0x60] = .error .truncated ∧
    decode [0x60, 0x2A, 0x12] = .ok (.ldImm 0 0x2A, [0x12]) := by
  refine ⟨rfl, rfl, rfl⟩
/-- The row words of opcode_table.json, high byte first in memory; a 17-bit word is none. -/
theorem test_decodeTableWord :
    decodeTableWord 16 0xF255 = some (.dumpRegs 2) ∧ decodeTableWord 16 0x00E0 = some .cls ∧
    decodeTableWord 17 0x00E0 = none ∧ decodeTableWord 0 0 = none := by decide

/-! ## Single cycles: system, jump, call (95_test_vectors.md section C) -/

theorem test_cls_clears : after (atPc 0x00E0 { regs [(15, 7)] with fb := fbWrite fbClear 3 2 0xFF })
    (fun t => (rowOf t 3, t.needsRedraw, readV t 15, t.pc)) = some ([0, 0, 0, 0, 0, 0, 0, 0], true, 7, 0x202) := by decide
theorem test_ret_pops : after (atPc 0x00EE (stackWrite { State.reset with sp := 1 } 0 0x204))
    (fun t => (t.sp, t.pc, stackRead t 0)) = some (0, 0x204, 0x204) := by decide
theorem test_ret_underflow : errorOf (atPc 0x00EE State.reset) = some (3, none, 0x202) := by decide
theorem test_sys_is_nothing : after (atPc 0x01E0 { State.reset with sp := 1, fb := fbWrite fbClear 3 2 0xFF })
    (fun t => (t.pc, t.sp, fbRead t.fb 3 2)) = some (0x202, 1, 0xFF) := by decide
theorem test_jp_to_itself : after (atPc 0x1200 State.reset) (fun t => t.pc) = some 0x200 := by decide
theorem test_jp_to_last_byte :
    after (atPc 0x1FFF State.reset) errorOf = some (some (4, some 4096, 0xFFF)) := by decide
theorem test_call_pushes : after (atPc 0x2300 State.reset) (fun t => (stackRead t 0, t.sp, t.pc)) = some (0x202, 1, 0x300) := by
  decide
theorem test_call_overflow : errorOf (atPc 0x2200 { State.reset with sp := 16 }) = some (2, none, 0x202) := by decide
theorem test_jpV0_not_reduced :
    after (atPc 0xBFFF (regs [(0, 0xFF)])) (fun t => (t.pc, errorOf t)) = some (0x10FE, some (4, some 4350, 0x10FE)) := by
  decide

/-! ## Skips -/

theorem test_seImm_equal : after (atPc 0x332A (regs [(3, 0x2A)])) (fun t => t.pc) = some 0x204 := by decide
theorem test_seImm_differs : after (atPc 0x332A (regs [(3, 0x2B)])) (fun t => t.pc) = some 0x202 := by decide
theorem test_sneImm_equal : after (atPc 0x432A (regs [(3, 0x2A)])) (fun t => t.pc) = some 0x202 := by decide
theorem test_sneImm_differs : after (atPc 0x432A State.reset) (fun t => t.pc) = some 0x204 := by decide
theorem test_seReg_equal : after (atPc 0x5120 (regs [(1, 7), (2, 7)])) (fun t => t.pc) = some 0x204 := by decide
theorem test_seReg_differs : after (atPc 0x5120 (regs [(1, 7), (2, 8)])) (fun t => t.pc) = some 0x202 := by decide
theorem test_sneReg_differs : after (atPc 0x9120 (regs [(1, 7), (2, 8)])) (fun t => t.pc) = some 0x204 := by decide
theorem test_sneReg_same_register : after (atPc 0x9330 (regs [(3, 9)])) (fun t => t.pc) = some 0x202 := by decide
/-- A skip at 4094 leaves `pc` at 4098, where nothing can be fetched. -/
theorem test_skip_at_the_top : after (atPc 0x3000 { State.reset with pc := 0xFFE }) (fun t => (t.pc, errorOf t)) =
    some (4098, some (4, some 4098, 4098)) := by decide

/-! ## Immediate, index, random (section B) -/

theorem test_ldImm_flag_register : after (atPc 0x6FAB State.reset) (fun t => readV t 15) = some 0xAB := by decide
theorem test_addImm_wraps :
    after (atPc 0x7205 (regs [(2, 0xFE)])) (fun t => (readV t 2, readV t 15)) = some (0x03, 0x00) := by decide
theorem test_addImm_flag_register : after (atPc 0x7F01 (regs [(15, 0xFF)])) (fun t => readV t 15) = some 0x00 := by decide
theorem test_ldIndex_top : after (atPc 0xAFFF State.reset) (fun t => t.index) = some 0xFFF := by decide
/-- The draw is masked: whatever it is, the mask 00 gives 0. -/
theorem test_rnd_masked :
    after (atPc 0xC30F State.reset) (fun t => (readV t 3, t.draws)) = some (Config.randomByte 0 &&& 0x0F, 1) := by rfl
theorem test_rnd_mask_zero : after (atPc 0xC300 (regs [(3, 9)])) (fun t => readV t 3) = some 0x00 := by
  change some (Config.randomByte 0 &&& 0x00) = some 0x00
  simp

/-! ## ALU family (section A) -/

theorem test_ldReg : after (atPc 0x8120 (regs [(1, 0x12), (2, 0x34), (15, 7)])) (fun t => (readV t 1, readV t 15)) =
    some (0x34, 7) := by decide
theorem test_orReg : after (atPc 0x8121 (regs [(1, 0x5A), (2, 0x0F), (15, 7)])) (fun t => (readV t 1, readV t 15)) =
    some (0x5F, 7) := by decide
theorem test_andReg : after (atPc 0x8122 (regs [(1, 0x5A), (2, 0x0F), (15, 7)])) (fun t => (readV t 1, readV t 15)) =
    some (0x0A, 7) := by decide
theorem test_xorReg : after (atPc 0x8123 (regs [(1, 0x5A), (2, 0x0F), (15, 7)])) (fun t => (readV t 1, readV t 15)) =
    some (0x55, 7) := by decide
theorem test_addReg_carries : after (atPc 0x8124 (regs [(1, 0xFF), (2, 0x01)])) (fun t => (readV t 1, readV t 15)) =
    some (0x00, 1) := by decide
theorem test_addReg_source_is_flag : after (atPc 0x81F4 (regs [(1, 0xFF), (15, 0x01)])) (fun t => (readV t 1, readV t 15)) =
    some (0x00, 1) := by decide
theorem test_subReg_equal : after (atPc 0x8125 (regs [(1, 7), (2, 7), (15, 1)])) (fun t => (readV t 1, readV t 15)) =
    some (0x00, 0) := by decide
theorem test_subReg_source_is_flag : after (atPc 0x81F5 (regs [(1, 2), (15, 1)])) (fun t => (readV t 1, readV t 15)) =
    some (0x01, 1) := by decide
theorem test_subnReg_wraps : after (atPc 0x8127 (regs [(1, 5), (2, 3)])) (fun t => (readV t 1, readV t 15)) =
    some (0xFE, 0) := by decide
theorem test_subnReg_into_flag : after (atPc 0x8F27 (regs [(15, 3), (2, 9)])) (fun t => readV t 15) = some 1 := by decide
theorem test_shrReg_reads_y : after (atPc 0x8126 (regs [(1, 0x05), (2, 0x0A)])) (fun t => (readV t 1, readV t 15, readV t 2)) =
    some (0x05, 0, 0x0A) := by decide
theorem test_shrReg_quirk : after (atPc 0x8126 { regs [(1, 0x05), (2, 0x0A)] with quirkShift := true })
    (fun t => (readV t 1, readV t 15)) = some (0x02, 1) := by decide
theorem test_shlReg_reads_y : after (atPc 0x812E (regs [(1, 0x81), (2, 0x40)])) (fun t => (readV t 1, readV t 15)) =
    some (0x80, 0) := by decide
theorem test_shlReg_into_flag : after (atPc 0x8F2E { regs [(15, 0x81), (2, 0x7F)] with quirkShift := true })
    (fun t => readV t 15) = some 1 := by decide
theorem test_aluNop : after (atPc 0x8128 (regs [(1, 0x12), (2, 0x34), (15, 7)]))
    (fun t => (readV t 1, readV t 2, readV t 15, t.pc)) = some (0x12, 0x34, 7, 0x202) := by decide

/-! ## Draw (section D) -/

/-- DV4: an unaligned row that clears a set pixel. -/
theorem test_drw_unaligned_collision :
    after (atPc 0xD011 { sprite 3 0 [0xFF] with fb := fbWrite fbClear 0 0 0x10 })
      (fun t => (rowOf t 0, readV t 15, t.needsRedraw)) = some ([0x0F, 0xE0, 0, 0, 0, 0, 0, 0], 1, true) := by decide
/-- DV6: rows below the screen are skipped, not wrapped. -/
theorem test_drw_bottom :
    after (atPc 0xD014 (sprite 0 31 [0xF0, 0x0F, 0xAA, 0x55])) (fun t => (fbRead t.fb 31 0, fbRead t.fb 0 0, readV t 15)) =
      some (0xF0, 0x00, 0) := by decide
/-- DV7a and DV7b: the last column drawn and the first one skipped. -/
theorem test_drw_right_edge :
    after (atPc 0xD011 (sprite 56 0 [0xFF])) (fun t => fbRead t.fb 0 7) = some 0xFF ∧
    after (atPc 0xD011 (sprite 57 0 [0xFF])) (fun t => rowOf t 0) = some [0, 0, 0, 0, 0, 0, 0, 0] := by decide
/-- DV8 and DV9: no bytes need no range; two bytes from 4095 do not fit. -/
theorem test_drw_range :
    after (atPc 0xD010 { sprite 0 0 [] with index := 0xFFFF }) (fun t => (readV t 15, t.needsRedraw)) = some (0, true) ∧
    errorOf (atPc 0xD012 { sprite 0 0 [] with index := 0xFFF }) = some (4, some 4096, 0x202) := by decide

/-! ## Keypad and timers (section E) -/

theorem test_skp_down : after (atPc 0xE49E { regs [(4, 0x0F)] with keys := 0x8000 }) (fun t => t.pc) = some 0x204 := by decide
theorem test_skp_bad_key : errorOf (atPc 0xE49E (regs [(4, 0x10)])) = some (5, some 16, 0x202) := by decide
theorem test_sknp_down : after (atPc 0xE4A1 { regs [(4, 3)] with keys := 0x0008 }) (fun t => t.pc) = some 0x202 := by decide
theorem test_sknp_bad_key : errorOf (atPc 0xE4A1 (regs [(4, 0xFF)])) = some (5, some 255, 0x202) := by decide
theorem test_ldVxDt : after (atPc 0xF207 { State.reset with dt := 0x2C }) (fun t => (readV t 2, t.dt)) = some (0x2C, 0x2C) := by
  decide
theorem test_ldDtVx : after (atPc 0xF215 (regs [(2, 0x3C)])) (fun t => (t.dt, t.st)) = some (0x3C, 0) := by decide
theorem test_ldStVx : after (atPc 0xF218 (regs [(2, 5)])) (fun t => (t.st, t.dt)) = some (5, 0) := by decide
theorem test_ldVxKey_waits : after (atPc 0xF20A (regs [(2, 9)])) (fun t => (t.pc, readV t 2)) = some (0x200, 9) := by decide
theorem test_ldVxKey_lowest : after (atPc 0xF20A { State.reset with keys := 0x8008 }) (fun t => (readV t 2, t.pc, t.keys)) =
    some (3, 0x202, 0x8008) := by decide
theorem test_timer_tick :
    (timerTick { State.reset with dt := 0xFF, st := 2 }).dt = 0xFE ∧ (timerTick { State.reset with st := 2 }).st = 1 ∧
    (timerTick { State.reset with st := 2 }).dt = 0 := by decide

/-! ## Index and memory (section F) -/

theorem test_addIndex_past_memory : after (atPc 0xF11E { regs [(1, 5), (15, 7)] with index := 0xFFE })
    (fun t => (t.index, readV t 15)) = some (0x1003, 7) := by decide
theorem test_addIndex_wraps : after (atPc 0xF11E { regs [(1, 1)] with index := 0xFFFF }) (fun t => t.index) = some 0 := by decide
theorem test_ldFont_low_nibble : after (atPc 0xF329 (regs [(3, 0x1A)])) (fun t => t.index) = some 130 := by decide
theorem test_ldBcd : after (atPc 0xF233 { regs [(2, 156)] with index := 0x300 })
    (fun t => (loadBytes t.mem 0x300 3, t.index)) = some ([1, 5, 6], 0x300) := by decide
theorem test_ldBcd_range :
    after (atPc 0xF233 { regs [(2, 0xFF)] with index := 0xFFD }) (fun t => loadBytes t.mem 0xFFD 3) = some [2, 5, 5] ∧
    errorOf (atPc 0xF233 { State.reset with index := 0xFFE }) = some (4, some 4096, 0x202) := by decide
theorem test_dumpRegs : after (atPc 0xF255 { regs [(0, 0x11), (1, 0x22), (2, 0x33)] with index := 0x300 })
    (fun t => (loadBytes t.mem 0x300 4, t.index)) = some ([0x11, 0x22, 0x33, 0], 0x303) := by decide
theorem test_dumpRegs_quirk_and_range :
    after (atPc 0xFF55 { regs [(15, 9)] with index := 0xFF0, quirkLoad := true }) (fun t => (memRead t.mem 0xFFF, t.index)) =
      some (9, 0xFF0) ∧
    errorOf (atPc 0xFF55 { State.reset with index := 0xFF1 }) = some (4, some 4096, 0x202) := by decide
theorem test_loadRegs : after (atPc 0xF265 (withBytes [0x44, 0x55, 0x66, 0x77] State.reset))
    (fun t => (readRegs t 4, t.index)) = some ([0x44, 0x55, 0x66, 0], 0x303) := by decide
theorem test_loadRegs_quirk_and_range :
    after (atPc 0xF065 { withBytes [0x44] State.reset with quirkLoad := true }) (fun t => (readV t 0, t.index)) =
      some (0x44, 0x300) ∧
    errorOf (atPc 0xF065 { State.reset with index := 5000 }) = some (4, some 5000, 0x202) := by decide

/-! ## Fetch and reserved words (section G) -/

theorem test_fetch_last_word : after (atPc 0x6007 { State.reset with pc := 0xFFE }) (fun t => (readV t 0, t.pc)) =
    some (7, 0x1000) := by decide
theorem test_fetch_out_of_range :
    errorOf { State.reset with pc := 0xFFF } = some (4, some 4096, 0xFFF) ∧
    errorOf { State.reset with pc := 0x10FE } = some (4, some 4350, 0x10FE) := by decide
theorem test_reserved_words :
    errorOf (atPc 0x5121 State.reset) = some (1, some 0x5121, 0x202) ∧
    errorOf (atPc 0x912F State.reset) = some (1, some 0x912F, 0x202) ∧
    errorOf (atPc 0xE49F State.reset) = some (1, some 0xE49F, 0x202) ∧
    errorOf (atPc 0xF175 State.reset) = some (1, some 0xF175, 0x202) := by decide
/-- A cycle after a reserved word runs the next word (rule R97). -/
theorem test_after_a_reserved_word : (afterCycle (atPc 0x5121 State.reset)).pc = 0x202 := by decide

/-! ## Witnesses: what meets the hypotheses of the obligations -/

/-- One instruction of every completing row runs from one state: `sp` = 1, key 0 held. -/
def ready : State := { regs [(0, 1), (1, 2), (2, 3)] with sp := 1, keys := 1, index := 0x300 }

theorem witness_WellFormedInstructionsRoundTrip :
    (Instr.sys 0xFFF).wellFormed = true ∧ (Instr.reserved5 15 15 15).wellFormed = true ∧
    (Instr.aluNop 0 15 8).wellFormed = true ∧ (Instr.reservedE 0 0x9F).wellFormed = true ∧
    (Instr.reservedF 15 0xFF).wellFormed = true ∧ Instr.cls.wellFormed = true := by decide

theorem witness_LongestMaskRowIsDecoded :
    ∃ r ∈ opcodeMap, rowMatches r 0x00E0 = true ∧
      ∀ r' ∈ opcodeMap, rowMatches r' 0x00E0 = true → maskWeight r'.mask ≤ maskWeight r.mask :=
  ⟨⟨"CLS", 0xFFFF, 0x00E0⟩, by simp [opcodeMap, opcodeRowsLow], by decide, by decide⟩

theorem witness_StepRunsTheDecodedInstruction :
    (atPc 0x6007 { State.reset with pc := 4094 }).pc.toNat ≤ 4094 ∧
    decode [memRead (atPc 0x6007 { State.reset with pc := 4094 }).mem 4094,
      memRead (atPc 0x6007 { State.reset with pc := 4094 }).mem 4095] = .ok (.ldImm 0 7, []) ∧
    (Instr.ldImm 0 7).wellFormed = true := ⟨by decide, rfl, by decide⟩

theorem witness_FetchIsBigEndianAndStaysInMemory : 4095 ≤ ({ State.reset with pc := 4095 } : State).pc.toNat := by decide

/-- One fault of each kind in the list. -/
theorem witness_ErrorsComeOnlyFromTheirInstructions :
    exec .ret State.reset = .fault (.stackUnderflow State.reset) ∧
    exec (.call 0x200) { State.reset with sp := 16 } = .fault (.stackOverflow { State.reset with sp := 16 }) ∧
    exec (.skp 4) (regs [(4, 16)]) = .fault (.keyIndexOutOfRange 16 (regs [(4, 16)])) ∧
    exec (.drw 0 1 2) { State.reset with index := 4095 } =
      .fault (.memoryOutOfRange 4096 { State.reset with index := 4095 }) ∧
    exec (.ldBcd 0) { State.reset with index := 4094 } =
      .fault (.memoryOutOfRange 4096 { State.reset with index := 4094 }) ∧
    exec (.dumpRegs 1) { State.reset with index := 4095 } =
      .fault (.memoryOutOfRange 4096 { State.reset with index := 4095 }) ∧
    exec (.reserved5 1 2 1) State.reset = .fault (.unknownOpcode 0x5121 State.reset) :=
  ⟨rfl, rfl, rfl, rfl, rfl, rfl, rfl⟩

/-- A cycle that faults in the fetch, and one that faults after it. -/
theorem witness_FaultingCycleLeavesOnlyPcAdvanced :
    (∃ f, step { State.reset with pc := 4095 } = .fault f) ∧ ∃ f, step (atPc 0x00EE State.reset) = .fault f :=
  ⟨⟨_, rfl⟩, ⟨_, rfl⟩⟩

theorem witness_ErrorsDependOnNoInput :
    SameButInputs (atPc 0x00EE State.reset)
      { atPc 0x00EE State.reset with keys := 0xFFFF, dt := 9, st := 9, needsRedraw := true, running := false, draws := 5 } ∧
    ∃ f, step (atPc 0x00EE State.reset) = .fault f :=
  ⟨⟨rfl, rfl, rfl, rfl, rfl, rfl, rfl, rfl, rfl⟩, ⟨_, rfl⟩⟩

theorem witness_ReservedWordsRaiseUnknownOpcode :
    ∃ left, step (atPc 0xF1FF State.reset) = .fault (.unknownOpcode 0xF1FF left) := ⟨_, rfl⟩

theorem witness_ErrorEndsEveryRun :
    (∃ f, step (atPc 0x00EE State.reset) = .fault f) ∧ (atPc 0x00EE State.reset).running = true := ⟨⟨_, rfl⟩, rfl⟩

/-- The longest program that fits and one byte more, a font of 80 bytes and one of 79. -/
theorem witness_ConstructionPlacesItsArguments :
    Config.customaryFont.length = 80 ∧ (List.replicate 3584 (0 : Byte)).length ≤ 3584 ∧
    3584 < (List.replicate 3585 (0 : Byte)).length ∧ (List.replicate 79 (0 : Byte)).length ≠ 80 := by
  refine ⟨by decide, ?_, ?_, ?_⟩ <;> rw [List.length_replicate] <;> omega

/-- A return from the last word to 4096, the highest address a call can save. -/
def lastReturn : State := atPc 0x00EE (stackWrite { State.reset with pc := 4094, sp := 1 } 0 4096)

theorem witness_EveryStepKeepsTheInvariant : MachineInv lastReturn ∧ ∃ t, step lastReturn = .next t :=
  ⟨⟨by decide, by decide, by decide⟩, ⟨_, rfl⟩⟩

theorem witness_ConstructedMachinesMeetTheInvariant :
    ∃ t, construct true true Config.customaryFont [0x12, 0x00] = some t := ⟨_, rfl⟩

theorem witness_LoopAndFaultsKeepTheInvariant :
    MachineInv lastReturn ∧ ∃ t, hostLoop lastReturn [⟨[.timerTick, .keypadKeys 3], by decide⟩] = .next t :=
  ⟨⟨by decide, by decide, by decide⟩, ⟨_, rfl⟩⟩

theorem witness_NoInstructionReadsSoundTimerOrRunning :
    (∃ t, exec (.ldStVx 1) ready = .next t) ∧ ∃ t, exec (.ldImm 1 2) ready = .next t := ⟨⟨_, rfl⟩, ⟨_, rfl⟩⟩

theorem witness_FrameOfSystemJumpCall :
    ∀ i ∈ [Instr.cls, .ret, .sys 0x123, .jp 0x300, .call 0x300, .jpV0 0x300], completes i ready = true := by decide

theorem witness_FrameOfSkipsAndImmediates :
    ∀ i ∈ [Instr.seImm 1 2, .sneImm 1 2, .seReg 1 2, .sneReg 1 2, .ldImm 1 2, .addImm 1 2, .rnd 1 2, .ldIndex 0x300],
      completes i ready = true := by decide

theorem witness_FrameOfAlu :
    ∀ i ∈ [Instr.ldReg 1 2, .orReg 1 2, .andReg 1 2, .xorReg 1 2, .addReg 1 2, .subReg 1 2, .shrReg 1 2, .subnReg 1 2,
      .shlReg 1 2, .aluNop 1 2 8], completes i ready = true := by decide

theorem witness_FrameOfDraw : completes (.drw 0 1 15) ready = true := by decide

theorem witness_FrameOfKeypadTimer :
    ∀ i ∈ [Instr.skp 1, .sknp 1, .ldVxDt 1, .ldVxKey 1, .ldDtVx 1, .ldStVx 1], completes i ready = true := by decide

theorem witness_FrameOfIndexMemory :
    Memory.wf ready.mem = true ∧
    ∀ i ∈ [Instr.addIndex 1, .ldFont 1, .ldBcd 1, .dumpRegs 1, .loadRegs 1], completes i ready = true := by decide

theorem witness_JumpSetsPc :
    (0xFFF#12).toNat = 4095 ∧ (0xFFE#12).toNat ≤ 4094 ∧ (atPc 0x1200 State.reset).pc.toNat = (0x200#12).toNat ∧
    wordAt (atPc 0x1200 State.reset).mem 0x200 = encode (.jp 0x200) := by decide

theorem witness_CallPushesTheFetchedPc :
    ({ State.reset with sp := 15 } : State).sp.val < 16 ∧ ({ State.reset with sp := 16 } : State).sp.val = 16 := by decide

theorem witness_ReturnPopsTheLastEntry :
    1 ≤ ({ State.reset with sp := 16 } : State).sp.val ∧ 1 ≤ ready.sp.val ∧ State.reset.sp.val = 0 := by decide

/-- The subroutine wrote a register and moved `pc`; the stack is the call's. -/
theorem witness_ReturnComesBackBehindTheCall :
    ∃ t u, exec (.call 0x300) { State.reset with sp := 15 } = .next t ∧ u.sp = t.sp ∧ u.stack = t.stack ∧ u ≠ t :=
  ⟨_, { writeV (setPc (setSp (stackWrite { State.reset with sp := 15 } 15 512) 16) 0x300) 3 9 with pc := 0x310 },
    rfl, rfl, rfl, by decide⟩

theorem witness_AddWritesSumThenCarry : (14 : RegIdx) ≠ 15 := by decide

theorem witness_ShiftsMoveOneBitIntoTheFlag :
    (0x0A = if (regs [(1, 0x05), (2, 0x0A)]).quirkShift then (readV (regs [(1, 0x05), (2, 0x0A)]) 1).toNat
      else (readV (regs [(1, 0x05), (2, 0x0A)]) 2).toNat) := by decide

theorem witness_FlagWritersLeaveZeroOrOne :
    ∀ i ∈ [Instr.addReg 15 15, .subReg 15 1, .shrReg 15 2, .subnReg 1 15, .shlReg 15 2, .drw 15 15 0],
      completes i ready = true := by decide

/-- No bytes at the highest `I`, and the last byte of memory; a bit drawn on a set pixel, and one that is not. -/
theorem witness_DrawXorsTheSpritePixelByPixel :
    (0#4).toNat = 0 ∧ ({ State.reset with index := 4081 } : State).index.toNat + (15#4).toNat - 1 ≤ 4095 ∧
    pixel (fbWrite fbClear 0 0 0x10) 0 3 = true ∧
    drawnBit { sprite 3 0 [0xFF] with fb := fbWrite fbClear 0 0 0x10 } 0 1 1 0 3 = true ∧
    drawnBit (sprite 3 0 [0xFF]) 0 1 1 0 2 = false ∧ drawnBit (sprite 57 0 [0xFF]) 0 1 1 0 57 = false := by decide

theorem witness_DrawBeyondMemoryFaults :
    1 ≤ (1#4).toNat ∧ 4095 < ({ State.reset with index := 4096 } : State).index.toNat + (1#4).toNat - 1 := by decide

theorem witness_DrawingTwiceRestoresTheScreen :
    (0 : RegIdx) ≠ 15 ∧ (1 : RegIdx) ≠ 15 ∧ ∃ t, exec (.drw 0 1 1) (sprite 3 0 [0xFF]) = .next t :=
  ⟨by decide, by decide, ⟨_, rfl⟩⟩

theorem witness_KeySkipsTestOneBit :
    (readV (regs [(4, 15)]) 4).toNat = 15 ∧ 15 < (readV (regs [(4, 16)]) 4).toNat := by decide

theorem witness_KeyReadBlocksUntilAKeyIsHeld :
    ready.keys ≠ 0 ∧ State.reset.keys = 0 ∧ (atPc 0xF20A { State.reset with pc := 4094 }).pc.toNat ≤ 4094 ∧
    wordAt (atPc 0xF20A { State.reset with pc := 4094 }).mem 4094 = encode (.ldVxKey 2) ∧
    (atPc 0xF20A { State.reset with pc := 4094 }).keys = 0 := by decide

theorem witness_TimersAreReadAndWritten : readV State.reset 15 = 0 := by decide

theorem witness_DecimalDigitsAreStored :
    Memory.wf (withBytes [1, 2] State.reset).mem = true ∧ ({ State.reset with index := 4093 } : State).index.toNat + 2 ≤ 4095 ∧
    4095 < ({ State.reset with index := 4094 } : State).index.toNat + 2 := by decide

theorem witness_RegisterDumpStoresUpToX :
    Memory.wf (withBytes [1, 2] State.reset).mem = true ∧
    ({ State.reset with index := 4080 } : State).index.toNat + (15#4).toNat ≤ 4095 ∧
    4095 < ({ State.reset with index := 4081 } : State).index.toNat + (15#4).toNat := by decide

theorem witness_RegisterLoadReadsUpToX :
    ({ State.reset with index := 4095 } : State).index.toNat + (0#4).toNat ≤ 4095 ∧
    4095 < ({ State.reset with index := 4096 } : State).index.toNat + (0#4).toNat := by decide

/-- Between the dump and the load all registers were cleared. -/
theorem witness_LoadRestoresWhatDumpStored :
    ∃ t u, Memory.wf ready.mem = true ∧ exec (.dumpRegs 2) ready = .next t ∧ u.mem = t.mem ∧ u.index = ready.index ∧
      readV u 1 ≠ readV ready 1 :=
  ⟨_, { State.reset with index := 0x300, mem := storeBytes ready.mem 0x300 [1, 2, 3] }, by decide, rfl, rfl, rfl, by decide⟩

theorem witness_StoredWordIsFetchedNext :
    Memory.wf ready.mem = true ∧ 1 ≤ (1#4).toNat ∧ ∃ t, exec (.dumpRegs 1) ready = .next t := ⟨by decide, by decide, ⟨_, rfl⟩⟩

/-- A state where nothing could be fetched: the word is placed at 512 and runs. -/
theorem witness_PlacedWordRunsNext :
    Memory.wf ({ State.reset with pc := 4350 } : State).mem = true ∧
    after (atPc 0x6A2A { State.reset with pc := 4350 }) (fun t => readV t 10) = some 0x2A := by decide

/-- Two ticks are no gap; one tick among other moves is, and so is none (rule R36). -/
theorem test_gap_ticks :
    gapLegal [.timerTick, .timerTick] = false ∧ gapLegal [.keypadKeys 3, .timerTick, .displayRefresh] = true ∧
    gapLegal [.keypadKeys 3, .keypadQuit] = true := by decide

/-- Over two cycles with a tick in the gap behind each, DT falls by 2 and ST stops at 0. -/
theorem test_loop_ticks :
    (match hostLoop { State.reset with dt := 0x2C, st := 1 } [⟨[.timerTick], rfl⟩, ⟨[.timerTick], rfl⟩] with
      | .next t => some (t.dt, t.st)
      | .fault _ => none
      | .refused _ => none) = some (0x2A, 0) := by decide

/-- A gap with a tick and one without. -/
theorem witness_AdapterMovesWriteOnlyTheirFields :
    (applyGap { State.reset with dt := 9 } ⟨[.displayRefresh, .timerTick], by decide⟩).dt = 8 ∧
    (applyGap { State.reset with dt := 9 } ⟨[.displayRefresh], by decide⟩).dt = 9 := by decide

theorem witness_GapOrderIsImmaterial :
    List.Perm [AdapterMove.timerTick, .keypadKeys 3, .displayRefresh] [.displayRefresh, .timerTick, .keypadKeys 3] ∧
    ∀ k k', AdapterMove.keypadKeys k ∈ [AdapterMove.timerTick, .keypadKeys 3, .displayRefresh] →
      AdapterMove.keypadKeys k' ∈ [AdapterMove.timerTick, .keypadKeys 3, .displayRefresh] → k = k' := by
  refine ⟨by decide, fun k k' h h' => ?_⟩
  simp at h h'
  rw [h, h']

theorem witness_IdleLoopIsTheRepeatedCycle :
    State.reset.running = true ∧ ({ State.reset with running := false } : State).running = false := by decide

end Sys2Proof.Tests
end

section
/-! PROOFS. The family "System, jump, call" (spec/40_system_jump_call.md). -/

namespace Sys2Proof.Machine

/-- What `00E0` does (rule R120): the clear frame buffer is drawn and the dirty flag set, from every state. -/
theorem exec_cls (s : State) : exec .cls s = .next (redraw s fbClear) := rfl

/-- Settles O26: the frame buffer `00E0` leaves is `fbClear`, whose bytes and pixels are all 0, and `redraw` writes
only the frame buffer and the dirty flag. -/
theorem clearScreenClearsEveryPixel : Obligations.ClearScreenClearsEveryPixel := by
  intro s
  refine ⟨redraw s fbClear, exec_cls s, ?bytes, ?pixels, redraw_needsRedraw s fbClear, ?frame⟩
  case bytes => exact fbRead_fbClear
  case pixels => exact pixel_fbClear
  case frame => rfl

end Sys2Proof.Machine
end

section
/-! PROOFS. The family "Skips" (spec/41_skip.md). -/

namespace Sys2Proof.Machine

/-- A skip writes `pc` alone, whatever the condition is. -/
theorem skipIf_eq (c : Bool) (s : State) : skipIf c s = { s with pc := if c then s.pc + 2 else s.pc } := by
  cases c
  case false => rfl
  case true => rfl

/-- The skip of the "equal" forms, with its condition as a proposition. -/
theorem skipIf_beq (a b : Byte) (s : State) :
    skipIf (a == b) s = { s with pc := if a = b then s.pc + 2 else s.pc } := by
  simp only [skipIf_eq, beq_iff_eq]

/-- The skip of the "not equal" forms: the same comparison with the two outcomes exchanged. -/
theorem skipIf_bne (a b : Byte) (s : State) :
    skipIf (a != b) s = { s with pc := if a = b then s.pc else s.pc + 2 } := by
  simp only [skipIf_eq, bne_iff_ne, ne_eq, ite_not]

/-- What `3xnn` does (rule R140): it completes from every state, as a skip on equality with the immediate. -/
theorem exec_seImm (x : RegIdx) (nn : Byte) (s : State) :
    exec (.seImm x nn) s = .next (skipIf (readV s x == nn) s) := rfl

/-- What `4xnn` does (rule R141): it completes from every state, as a skip on difference from the immediate. -/
theorem exec_sneImm (x : RegIdx) (nn : Byte) (s : State) :
    exec (.sneImm x nn) s = .next (skipIf (readV s x != nn) s) := rfl

/-- Settles O32: both instructions are one skip, `3xnn` on `V[x] = nn` and `4xnn` on its negation, and a skip writes
only `pc`. -/
theorem immediateSkipsCompareForEquality : Obligations.ImmediateSkipsCompareForEquality := by
  intro x nn s
  constructor
  case left => rw [exec_seImm, skipIf_beq]
  case right => rw [exec_sneImm, skipIf_bne]

end Sys2Proof.Machine
end

section
/-! PROOFS. The family "Immediate, index, random" (spec/42_immediate_index_random.md). -/

namespace Sys2Proof.Machine

/-- A register write changes no field but the registers. -/
theorem writeV_frame (s : State) (x : RegIdx) (b : Byte) :
    writeV s x b = { s with v := (writeV s x b).v } := rfl

/-- What `6xnn` does (rule R150): it completes from every state, as one register write. -/
theorem exec_ldImm (x : RegIdx) (nn : Byte) (s : State) : exec (.ldImm x nn) s = .next (writeV s x nn) := rfl

/-- What `7xnn` does (rule R151): it completes from every state, as one register write; no flag follows. -/
theorem exec_addImm (x : RegIdx) (nn : Byte) (s : State) :
    exec (.addImm x nn) s = .next (writeV s x (readV s x + nn)) := rfl

/-- What `Annn` does (rule R152): it completes from every state, with no check on the address. -/
theorem exec_ldIndex (nnn : BitVec 12) (s : State) :
    exec (.ldIndex nnn) s = .next (setIndex s (addrOperand nnn)) := rfl

/-- Extending an address operand by zeros keeps its value (rule R92). -/
theorem addrOperand_toNat (nnn : BitVec 12) : (addrOperand nnn).toNat = nnn.toNat :=
  BitVec.toNat_setWidth_of_le (by decide)

/-- Settles O34: `6xnn` is one register write, so `V[x]` reads `nn` and nothing else differs, also for `x` = 15. -/
theorem loadImmediateSetsTheRegister : Obligations.LoadImmediateSetsTheRegister := by
  intro x nn s
  refine ⟨writeV s x nn, exec_ldImm x nn s, ?dest, ?others, writeV_frame s x nn⟩
  case dest => exact readV_writeV_same s x nn
  case others => exact fun r hr => readV_writeV_other s nn hr

/-- Settles O35: `7xnn` is one register write of a byte sum, which is the sum modulo 256; no second write reaches
`VF`. -/
theorem addImmediateWrapsWithoutFlag : Obligations.AddImmediateWrapsWithoutFlag := by
  intro x nn s
  refine ⟨writeV s x (readV s x + nn), exec_addImm x nn s, ?dest, ?others, writeV_frame s x _⟩
  case dest => rw [readV_writeV_same, BitVec.toNat_add]
  case others => exact fun r hr => readV_writeV_other s _ hr

/-- Settles O36: `Annn` writes only `I`, and the address operand it writes has the value of `nnn`. -/
theorem loadIndexSetsI : Obligations.LoadIndexSetsI := by
  intro nnn s
  refine ⟨setIndex s (addrOperand nnn), exec_ldIndex nnn s, ?value, ?frame⟩
  case value => rw [setIndex_index, addrOperand_toNat]
  case frame => rfl

end Sys2Proof.Machine
end

section
/-! PROOFS. The family "Register-to-register ALU" (spec/43_alu.md). -/

namespace Sys2Proof.Machine

/-- One register write leaves every other register and every other field as it was. -/
theorem writeV_changes_only (s : State) (x : RegIdx) (b : Byte) :
    (∀ r, r ≠ x → readV (writeV s x b) r = readV s r) ∧ writeV s x b = { s with v := (writeV s x b).v } :=
  ⟨fun _ hr => readV_writeV_other s b hr, writeV_frame s x b⟩

/-- What `8xy0` does (rule R160): it completes from every state, as one register write. -/
theorem exec_ldReg (x y : RegIdx) (s : State) : exec (.ldReg x y) s = .next (writeV s x (readV s y)) := rfl

/-- What `8xy1` does (rule R161): it completes from every state, as one register write. -/
theorem exec_orReg (x y : RegIdx) (s : State) :
    exec (.orReg x y) s = .next (writeV s x (readV s x ||| readV s y)) := rfl

/-- What `8xy2` does (rule R162): it completes from every state, as one register write. -/
theorem exec_andReg (x y : RegIdx) (s : State) :
    exec (.andReg x y) s = .next (writeV s x (readV s x &&& readV s y)) := rfl

/-- What `8xy3` does (rule R163): it completes from every state, as one register write. -/
theorem exec_xorReg (x y : RegIdx) (s : State) :
    exec (.xorReg x y) s = .next (writeV s x (readV s x ^^^ readV s y)) := rfl

/-- The no-op class of family 8 answers the state it was given (rule R170). -/
theorem exec_aluNop (x y : RegIdx) (n : BitVec 4) (s : State) : exec (.aluNop x y n) s = .next s := rfl

/-- The system no-op `0nnn` answers the state it was given (rule R122). -/
theorem exec_sys (nnn : BitVec 12) (s : State) : exec (.sys nnn) s = .next s := rfl

/-- Settles O38: each of the four is one register write of the pre-state operands' copy, OR, AND or XOR, whose bits
are those of the operands combined; no second write reaches `VF`. -/
theorem assignAndLogicBitByBit : Obligations.AssignAndLogicBitByBit := by
  intro x y s
  refine ⟨⟨_, exec_ldReg x y s, ?copy, writeV_changes_only s x _⟩,
    ⟨_, exec_orReg x y s, ?or, writeV_changes_only s x _⟩,
    ⟨_, exec_andReg x y s, ?and, writeV_changes_only s x _⟩,
    ⟨_, exec_xorReg x y s, ?xor, writeV_changes_only s x _⟩⟩
  case copy => exact readV_writeV_same s x _
  case or => intro i _; rw [readV_writeV_same, BitVec.getLsbD_or]
  case and => intro i _; rw [readV_writeV_same, BitVec.getLsbD_and]
  case xor => intro i _; rw [readV_writeV_same, BitVec.getLsbD_xor]

/-- Settles O42: both no-ops answer the state they were given, so no operand field matters. -/
theorem noOpsChangeNothing : Obligations.NoOpsChangeNothing :=
  ⟨exec_aluNop, exec_sys⟩

end Sys2Proof.Machine
end

section
/-! PROOFS. The family "Keypad and timers" (spec/45_keypad_timer.md). -/

namespace Sys2Proof.Machine

/-- For a nonzero bitmap `lowestSet` answers a set bit, and every lower bit is clear (rule R8). -/
theorem lowestSet_spec {k : Word} (h : k ≠ 0) :
    lowestSet k < 16 ∧ k.getLsbD (lowestSet k) = true ∧ ∀ j, j < lowestSet k → k.getLsbD j = false := by
  cases hfind : (List.range 16).find? (fun i => k.getLsbD i) with
  | none =>
    have hclear : ∀ i, i < 16 → k.getLsbD i = false := by
      simpa using List.find?_eq_none.mp hfind
    exact absurd (BitVec.eq_of_getLsbD_eq fun i hi => by simp [hclear i hi]) h
  | some j =>
    have hlow : lowestSet k = j := by rw [lowestSet, hfind, Option.getD_some]
    obtain ⟨hj, hmem, hbelow⟩ := List.find?_range_eq_some.mp hfind
    rw [hlow]
    exact ⟨List.mem_range.mp hmem, hj, fun j' hj' => by simpa using hbelow j' hj'⟩

/-- What `Fx0A` does with a key held (rule R203): one register write, of the lowest set bit's index. -/
theorem exec_ldVxKey_held (x : RegIdx) {s : State} (h : s.keys ≠ 0) :
    exec (.ldVxKey x) s = .next (writeV s x (BitVec.ofNat 8 (lowestSet s.keys))) := if_neg h

/-- What `Fx0A` does with no key held (rule R203): `pc` goes back to the instruction itself. -/
theorem exec_ldVxKey_none (x : RegIdx) {s : State} (h : s.keys = 0) :
    exec (.ldVxKey x) s = .next (rewindPc s) := if_pos h

/-- The word of `Fx0A` decodes to `Fx0A`: family F, low byte `0A` (rule R93). -/
theorem decodeWord_encode_ldVxKey (x : RegIdx) : decodeWord (encode (.ldVxKey x)) = .ldVxKey x := by
  simp [encode, decodeWord, decodeFamilyF]

/-- The rewind undoes the fetch's advance, in every state: both are taken modulo 65536. -/
@[simp] theorem rewindPc_advancePc (s : State) : rewindPc (advancePc s) = s := by
  simp [rewindPc, advancePc]

/-- What a cycle does when `pc` can fetch the word at it: the decoded instruction, on the advanced state. -/
theorem step_eq_exec {s : State} (h : s.pc.toNat ≤ 4094) :
    step s = exec (decodeWord (wordAt s.mem s.pc.toNat)) (advancePc s) := by
  rw [step, fetch_ok s h]

/-- Settles O48: with a key held `Fx0A` is one write of `lowestSet`, which is a key number and so fits in a byte; with
none held it rewinds `pc`, which in a whole cycle undoes the fetch's advance. -/
theorem keyReadBlocksUntilAKeyIsHeld : Obligations.KeyReadBlocksUntilAKeyIsHeld := by
  refine ⟨fun x s hkeys => ?held, fun x s hkeys => exec_ldVxKey_none x hkeys, fun x s hpc hword hkeys => ?cycle⟩
  case held =>
    obtain ⟨hlt, hset, hbelow⟩ := lowestSet_spec hkeys
    have hval : (readV (writeV s x (BitVec.ofNat 8 (lowestSet s.keys))) x).toNat = lowestSet s.keys := by
      rw [readV_writeV_same, BitVec.toNat_ofNat, Nat.mod_eq_of_lt (by omega)]
    exact ⟨_, _, exec_ldVxKey_held x hkeys, hlt, hset, hbelow, hval, writeV_changes_only s x _⟩
  case cycle =>
    have hfetched : (advancePc s).keys = 0 := hkeys
    rw [step_eq_exec hpc, hword, decodeWord_encode_ldVxKey, exec_ldVxKey_none x hfetched, rewindPc_advancePc]

/-- What `Fx07` does (rule R202): it completes from every state, as one register write. -/
theorem exec_ldVxDt (x : RegIdx) (s : State) : exec (.ldVxDt x) s = .next (writeV s x s.dt) := rfl

/-- What `Fx15` does (rule R204): it completes from every state and replaces the delay timer. -/
theorem exec_ldDtVx (x : RegIdx) (s : State) : exec (.ldDtVx x) s = .next { s with dt := readV s x } := rfl

/-- What `Fx18` does (rule R205): it completes from every state and replaces the sound timer. -/
theorem exec_ldStVx (x : RegIdx) (s : State) : exec (.ldStVx x) s = .next { s with st := readV s x } := rfl

/-- A timer at 0 stays at 0 (rules R36, R254). -/
theorem countDown_zero : countDown 0 = 0 := rfl

/-- A tick counts both timers down (rule R36). -/
theorem moveAdapter_timerTick (s : State) :
    moveAdapter s .timerTick = { s with dt := countDown s.dt, st := countDown s.st } := rfl

/-- Settles O49: `Fx07` is one register write of `DT`, `Fx15` and `Fx18` each write one timer alone, and a tick counts
a timer that was set to 0 no further down. -/
theorem timersAreReadAndWritten : Obligations.TimersAreReadAndWritten := by
  intro x s
  refine ⟨⟨_, exec_ldVxDt x s, readV_writeV_same s x s.dt, writeV_changes_only s x s.dt⟩, exec_ldDtVx x s,
    exec_ldStVx x s, fun hzero => ⟨?delay, ?sound⟩⟩
  case delay => simp only [moveAdapter_timerTick, hzero, countDown_zero]
  case sound => simp only [moveAdapter_timerTick, hzero, countDown_zero]

end Sys2Proof.Machine
end

section
/-! PROOFS. The family "Index and memory" (spec/46_index_memory.md). -/

namespace Sys2Proof.Machine

/-- What `Fx29` does (rule R222): it completes from every state, with no memory read. -/
theorem exec_ldFont (x : RegIdx) (s : State) :
    exec (.ldFont x) s = .next (setIndex s (glyphAddress (readV s x))) := rfl

/-- The glyph address depends on the low nibble alone, and its sum, at most 155, does not wrap (rule R222). -/
theorem glyphAddress_toNat (b : Byte) : (glyphAddress b).toNat = 80 + 5 * (b.toNat % 16) := by
  have hnibble : (b.extractLsb' 0 4).toNat = b.toNat % 16 := by
    rw [BitVec.extractLsb'_toNat, Nat.shiftRight_zero]
  rw [glyphAddress, hnibble, Config.fontBase, BitVec.toNat_ofNat]
  exact Nat.mod_eq_of_lt (by omega)

/-- Settles O51: `Fx29` writes only `I`, with the glyph address of `V[x]`, which is a sum over its low nibble. -/
theorem fontAddressOfTheLowNibble : Obligations.FontAddressOfTheLowNibble := by
  intro x s
  refine ⟨setIndex s (glyphAddress (readV s x)), exec_ldFont x s, ?value, ?frame⟩
  case value => rw [setIndex_index, glyphAddress_toNat]
  case frame => rfl

end Sys2Proof.Machine
end

section
/-! PROOFS. Encoding (spec/30_encoding.md): decoding gives every well-formed instruction back, every word is the word of
the instruction it decodes to, and the row of the opcode map with the most mask bits names that instruction. -/

namespace Sys2Proof

/-! ## The families whose sub-fields decide (rules R93 to R96) -/

theorem decodeWord_family0 {w : Word} (h : fieldOp w = 0x0) : decodeWord w = decodeFamily0 w := by simp [decodeWord, h]

theorem decodeWord_family5 {w : Word} (h : fieldOp w = 0x5) : decodeWord w = decodeFamily5 w := by simp [decodeWord, h]

theorem decodeWord_family8 {w : Word} (h : fieldOp w = 0x8) : decodeWord w = decodeFamily8 w := by simp [decodeWord, h]

theorem decodeWord_family9 {w : Word} (h : fieldOp w = 0x9) : decodeWord w = decodeFamily9 w := by simp [decodeWord, h]

theorem decodeWord_familyE {w : Word} (h : fieldOp w = 0xE) : decodeWord w = decodeFamilyE w := by simp [decodeWord, h]

theorem decodeWord_familyF {w : Word} (h : fieldOp w = 0xF) : decodeWord w = decodeFamilyF w := by simp [decodeWord, h]

theorem decodeFamily0_sys {w : Word} (hcls : w ≠ 0x00E0) (hret : w ≠ 0x00EE) : decodeFamily0 w = .sys (fieldNNN w) := by
  rw [decodeFamily0, if_neg hcls, if_neg hret]

theorem decodeFamily5_reserved {w : Word} (h : fieldN w ≠ 0) :
    decodeFamily5 w = .reserved5 (fieldX w) (fieldY w) (fieldN w) := if_neg h

theorem decodeFamily9_reserved {w : Word} (h : fieldN w ≠ 0) :
    decodeFamily9 w = .reserved9 (fieldX w) (fieldY w) (fieldN w) := if_neg h

theorem aluOperations_contains :
    ∀ n : BitVec 4, aluOperations.contains n = true ↔ n.toNat ∈ [0, 1, 2, 3, 4, 5, 6, 7, 0xE] := by decide

theorem keyOperations_contains : ∀ nn : Byte, keyOperations.contains nn = true ↔ nn.toNat ∈ [0x9E, 0xA1] := by decide

theorem miscOperations_contains : ∀ nn : Byte, miscOperations.contains nn = true ↔
    nn.toNat ∈ [0x07, 0x0A, 0x15, 0x18, 0x1E, 0x29, 0x33, 0x55, 0x65] := by decide

theorem decodeFamily8_unlisted {w : Word} (h : ¬ aluOperations.contains (fieldN w) = true) :
    decodeFamily8 w = .aluNop (fieldX w) (fieldY w) (fieldN w) := by
  rw [aluOperations_contains] at h
  unfold decodeFamily8
  split
  case h_10 => rfl
  all_goals next hlisted => exact absurd (by rw [hlisted]; decide) h

theorem decodeFamilyE_unlisted {w : Word} (h : ¬ keyOperations.contains (fieldNN w) = true) :
    decodeFamilyE w = .reservedE (fieldX w) (fieldNN w) := by
  rw [keyOperations_contains] at h
  unfold decodeFamilyE
  split
  case h_3 => rfl
  all_goals next hlisted => exact absurd (by rw [hlisted]; decide) h

theorem decodeFamilyF_unlisted {w : Word} (h : ¬ miscOperations.contains (fieldNN w) = true) :
    decodeFamilyF w = .reservedF (fieldX w) (fieldNN w) := by
  rw [miscOperations_contains] at h
  unfold decodeFamilyF
  split
  case h_10 => rfl
  all_goals next hlisted => exact absurd (by rw [hlisted]; decide) h

/-! ## Decoding an encoded instruction -/

theorem packA_ne_of_nnn_ne {op : BitVec 4} {nnn : BitVec 12} {w : Word} (h : nnn ≠ fieldNNN w) : packA op nnn ≠ w :=
  fun e => h (by rw [← e, fieldNNN_packA])

/-- The classes without an operation of their own (rules R95, R96): well-formedness excludes the words that have one. -/
theorem decodeWord_encode_sys {nnn : BitVec 12} (h : (Instr.sys nnn).wellFormed = true) :
    decodeWord (encode (.sys nnn)) = .sys nnn := by
  simp only [Instr.wellFormed, Bool.and_eq_true, bne_iff_ne] at h
  rw [encode, decodeWord_family0 (fieldOp_packA 0x0 nnn),
    decodeFamily0_sys (packA_ne_of_nnn_ne h.1) (packA_ne_of_nnn_ne h.2), fieldNNN_packA]

theorem decodeWord_encode_reserved5 {x y : RegIdx} {n : BitVec 4} (h : (Instr.reserved5 x y n).wellFormed = true) :
    decodeWord (encode (.reserved5 x y n)) = .reserved5 x y n := by
  have hn : n ≠ 0 := by simpa [Instr.wellFormed] using h
  rw [decodeWord_family5 (by simp [encode]), decodeFamily5_reserved (by simpa [encode] using hn)]
  simp [encode]

theorem decodeWord_encode_reserved9 {x y : RegIdx} {n : BitVec 4} (h : (Instr.reserved9 x y n).wellFormed = true) :
    decodeWord (encode (.reserved9 x y n)) = .reserved9 x y n := by
  have hn : n ≠ 0 := by simpa [Instr.wellFormed] using h
  rw [decodeWord_family9 (by simp [encode]), decodeFamily9_reserved (by simpa [encode] using hn)]
  simp [encode]

theorem decodeWord_encode_aluNop {x y : RegIdx} {n : BitVec 4} (h : (Instr.aluNop x y n).wellFormed = true) :
    decodeWord (encode (.aluNop x y n)) = .aluNop x y n := by
  have hn : ¬ aluOperations.contains n = true := by simpa [Instr.wellFormed] using h
  rw [decodeWord_family8 (by simp [encode]), decodeFamily8_unlisted (by rwa [encode, fieldN_packXY])]
  simp [encode]

theorem decodeWord_encode_reservedE {x : RegIdx} {nn : Byte} (h : (Instr.reservedE x nn).wellFormed = true) :
    decodeWord (encode (.reservedE x nn)) = .reservedE x nn := by
  have hn : ¬ keyOperations.contains nn = true := by simpa [Instr.wellFormed] using h
  rw [decodeWord_familyE (by simp [encode]), decodeFamilyE_unlisted (by rwa [encode, fieldNN_packXI])]
  simp [encode]

theorem decodeWord_encode_reservedF {x : RegIdx} {nn : Byte} (h : (Instr.reservedF x nn).wellFormed = true) :
    decodeWord (encode (.reservedF x nn)) = .reservedF x nn := by
  have hn : ¬ miscOperations.contains nn = true := by simpa [Instr.wellFormed] using h
  rw [decodeWord_familyF (by simp [encode]), decodeFamilyF_unlisted (by rwa [encode, fieldNN_packXI])]
  simp [encode]

/-- The decoder undoes the encoder on the well-formed instructions: the fields of the packed word are the operands. -/
theorem decodeWord_encode {i : Instr} (h : i.wellFormed = true) : decodeWord (encode i) = i := by
  cases i with
  | sys nnn => exact decodeWord_encode_sys h
  | reserved5 x y n => exact decodeWord_encode_reserved5 h
  | reserved9 x y n => exact decodeWord_encode_reserved9 h
  | aluNop x y n => exact decodeWord_encode_aluNop h
  | reservedE x nn => exact decodeWord_encode_reservedE h
  | reservedF x nn => exact decodeWord_encode_reservedF h
  | cls => rfl
  | ret => rfl
  | seReg | sneReg => simp [encode, decodeWord, decodeFamily5, decodeFamily9]
  | ldReg | orReg | andReg | xorReg | addReg | subReg | shrReg | subnReg | shlReg =>
    simp [encode, decodeWord, decodeFamily8]
  | skp | sknp => simp [encode, decodeWord, decodeFamilyE]
  | ldVxDt | ldVxKey | ldDtVx | ldStVx | addIndex | ldFont | ldBcd | dumpRegs | loadRegs =>
    simp [encode, decodeWord, decodeFamilyF]
  | _ => simp [encode, decodeWord]

/-- Settles O1: the two bytes are those of the encoded word, which decodes to the instruction; the tail is handed back. -/
theorem wellFormedInstructionsRoundTrip : Obligations.WellFormedInstructionsRoundTrip := by
  intro i hwf rest
  calc decode (encodeBytes i ++ rest) = .ok (decodeWord (encode i), rest) := decode_bytes (encode i) rest
    _ = .ok (i, rest) := by rw [decodeWord_encode hwf]

/-! ## Encoding a decoded word -/

/-- The word is the word of the well-formed instruction. -/
def IsWordOf (i : Instr) (w : Word) : Prop := i.wellFormed = true ∧ encode i = w

/-- Packing the fields of a word gives the word back, with a field written as the value it is known to have. -/
theorem packA_eq {w : Word} {op : BitVec 4} (hop : fieldOp w = op) : packA op (fieldNNN w) = w := by
  rw [← hop, packA_fields]

theorem packXI_eq {w : Word} {op : BitVec 4} {nn : Byte} (hop : fieldOp w = op) (hnn : fieldNN w = nn) :
    packXI op (fieldX w) nn = w := by rw [← hop, ← hnn, packXI_fields]

theorem packXY_eq {w : Word} {op n : BitVec 4} (hop : fieldOp w = op) (hn : fieldN w = n) :
    packXY op (fieldX w) (fieldY w) n = w := by rw [← hop, ← hn, packXY_fields]

theorem isWordOf_decodeFamily0 {w : Word} (h : fieldOp w = 0x0) : IsWordOf (decodeFamily0 w) w := by
  by_cases hcls : w = 0x00E0
  · subst hcls; exact ⟨rfl, rfl⟩
  by_cases hret : w = 0x00EE
  · subst hret; exact ⟨rfl, rfl⟩
  have hne : ∀ nnn, packA 0x0 nnn ≠ w → (fieldNNN w != nnn) = true := by
    intro nnn hw
    rw [bne_iff_ne]
    rintro rfl
    exact hw (packA_eq h)
  rw [decodeFamily0_sys hcls hret]
  refine ⟨?wf, packA_eq h⟩
  case wf => rw [Instr.wellFormed, hne 0x0E0 (Ne.symm hcls), hne 0x0EE (Ne.symm hret)]; rfl

theorem isWordOf_decodeFamily5 {w : Word} (h : fieldOp w = 0x5) : IsWordOf (decodeFamily5 w) w := by
  by_cases hn : fieldN w = 0
  · rw [decodeFamily5, if_pos hn]
    exact ⟨rfl, packXY_eq h hn⟩
  · rw [decodeFamily5_reserved hn]
    exact ⟨bne_iff_ne.mpr hn, packXY_eq h rfl⟩

theorem isWordOf_decodeFamily9 {w : Word} (h : fieldOp w = 0x9) : IsWordOf (decodeFamily9 w) w := by
  by_cases hn : fieldN w = 0
  · rw [decodeFamily9, if_pos hn]
    exact ⟨rfl, packXY_eq h hn⟩
  · rw [decodeFamily9_reserved hn]
    exact ⟨bne_iff_ne.mpr hn, packXY_eq h rfl⟩

theorem isWordOf_decodeFamily8 {w : Word} (h : fieldOp w = 0x8) : IsWordOf (decodeFamily8 w) w := by
  by_cases hn : aluOperations.contains (fieldN w) = true
  case neg =>
    rw [decodeFamily8_unlisted hn]
    exact ⟨by simpa [Instr.wellFormed] using hn, packXY_eq h rfl⟩
  case pos =>
    rw [aluOperations_contains] at hn
    unfold decodeFamily8
    split
    case h_10 => simp_all
    all_goals exact ⟨rfl, packXY_eq h (BitVec.eq_of_toNat_eq (by assumption))⟩

theorem isWordOf_decodeFamilyE {w : Word} (h : fieldOp w = 0xE) : IsWordOf (decodeFamilyE w) w := by
  by_cases hn : keyOperations.contains (fieldNN w) = true
  case neg =>
    rw [decodeFamilyE_unlisted hn]
    exact ⟨by simpa [Instr.wellFormed] using hn, packXI_eq h rfl⟩
  case pos =>
    rw [keyOperations_contains] at hn
    unfold decodeFamilyE
    split
    case h_3 => simp_all
    all_goals exact ⟨rfl, packXI_eq h (BitVec.eq_of_toNat_eq (by assumption))⟩

theorem isWordOf_decodeFamilyF {w : Word} (h : fieldOp w = 0xF) : IsWordOf (decodeFamilyF w) w := by
  by_cases hn : miscOperations.contains (fieldNN w) = true
  case neg =>
    rw [decodeFamilyF_unlisted hn]
    exact ⟨by simpa [Instr.wellFormed] using hn, packXI_eq h rfl⟩
  case pos =>
    rw [miscOperations_contains] at hn
    unfold decodeFamilyF
    split
    case h_10 => simp_all
    all_goals exact ⟨rfl, packXI_eq h (BitVec.eq_of_toNat_eq (by assumption))⟩

/-- Decoding is total and drops no bit: the sixteen families, by the leading nibble. -/
theorem isWordOf_decodeWord (w : Word) : IsWordOf (decodeWord w) w := by
  have hop {op : BitVec 4} (h : (fieldOp w).toNat = op.toNat) : fieldOp w = op := BitVec.eq_of_toNat_eq h
  unfold decodeWord
  split
  next h => exact isWordOf_decodeFamily0 (hop h)
  next h => exact ⟨rfl, packA_eq (hop h)⟩
  next h => exact ⟨rfl, packA_eq (hop h)⟩
  next h => exact ⟨rfl, packXI_eq (hop h) rfl⟩
  next h => exact ⟨rfl, packXI_eq (hop h) rfl⟩
  next h => exact isWordOf_decodeFamily5 (hop h)
  next h => exact ⟨rfl, packXI_eq (hop h) rfl⟩
  next h => exact ⟨rfl, packXI_eq (hop h) rfl⟩
  next h => exact isWordOf_decodeFamily8 (hop h)
  next h => exact isWordOf_decodeFamily9 (hop h)
  next h => exact ⟨rfl, packA_eq (hop h)⟩
  next h => exact ⟨rfl, packA_eq (hop h)⟩
  next h => exact ⟨rfl, packXI_eq (hop h) rfl⟩
  next h => exact ⟨rfl, packXY_eq (hop h) rfl⟩
  next h => exact isWordOf_decodeFamilyE (hop h)
  next =>
    refine isWordOf_decodeFamilyF (hop (?_ : (fieldOp w).toNat = 15))
    have := (fieldOp w).isLt
    simp only [imp_false] at *
    omega

/-- Settles O2: in each of the sixteen families the decoded instruction keeps every field of the word. -/
theorem everyWordIsItsInstructionsWord : Obligations.EveryWordIsItsInstructionsWord := isWordOf_decodeWord

/-! ## The longest mask (rule R94) -/

theorem fieldOp_and_op (w : Word) : fieldOp (w &&& 0xF000) = fieldOp w := by
  conv_lhs => rw [← packXY_fields w]
  exact (congrArg fieldOp (packXY_and_op ..)).trans (fieldOp_packXY ..)

theorem fieldOp_and_low (w : Word) : fieldOp (w &&& 0xF00F) = fieldOp w := by
  conv_lhs => rw [← packXY_fields w]
  exact (congrArg fieldOp (packXY_and_low ..)).trans (fieldOp_packXY ..)

theorem fieldN_and_low (w : Word) : fieldN (w &&& 0xF00F) = fieldN w := by
  conv_lhs => rw [← packXY_fields w]
  exact (congrArg fieldN (packXY_and_low ..)).trans (fieldN_packXY ..)

theorem fieldOp_and_lowByte (w : Word) : fieldOp (w &&& 0xF0FF) = fieldOp w := by
  conv_lhs => rw [← packXI_fields w]
  exact (congrArg fieldOp (packXI_and_low ..)).trans (fieldOp_packXI ..)

theorem fieldNN_and_lowByte (w : Word) : fieldNN (w &&& 0xF0FF) = fieldNN w := by
  conv_lhs => rw [← packXI_fields w]
  exact (congrArg fieldNN (packXI_and_low ..)).trans (fieldNN_packXI ..)

/-- In families 5, 8 and 9 the mnemonic depends on the two outer nibbles alone. -/
theorem mnemonicOf_decodeWord_low {w w' : Word} (hop : fieldOp w' = fieldOp w) (hn : fieldN w' = fieldN w)
    (hfam : fieldOp w = 0x5 ∨ fieldOp w = 0x8 ∨ fieldOp w = 0x9) :
    mnemonicOf (decodeWord w') = mnemonicOf (decodeWord w) := by
  rcases hfam with h | h | h
  · rw [decodeWord_family5 h, decodeWord_family5 (hop.trans h), decodeFamily5, decodeFamily5, hn]
    split <;> rfl
  · rw [decodeWord_family8 h, decodeWord_family8 (hop.trans h), decodeFamily8, decodeFamily8, hn]
    split <;> rfl
  · rw [decodeWord_family9 h, decodeWord_family9 (hop.trans h), decodeFamily9, decodeFamily9, hn]
    split <;> rfl

/-- In families E and F the mnemonic depends on the leading nibble and the low byte alone. -/
theorem mnemonicOf_decodeWord_lowByte {w w' : Word} (hop : fieldOp w' = fieldOp w) (hnn : fieldNN w' = fieldNN w)
    (hfam : fieldOp w = 0xE ∨ fieldOp w = 0xF) : mnemonicOf (decodeWord w') = mnemonicOf (decodeWord w) := by
  rcases hfam with h | h
  · rw [decodeWord_familyE h, decodeWord_familyE (hop.trans h), decodeFamilyE, decodeFamilyE, hnn]
    split <;> rfl
  · rw [decodeWord_familyF h, decodeWord_familyF (hop.trans h), decodeFamilyF, decodeFamilyF, hnn]
    split <;> rfl

/-- The map's masks by family: a row of more than the four leading bits fixes every bit, or lies in the families 5, 8
and 9 with the low nibble, or in E and F with the low byte. -/
theorem opcodeMap_masks : ∀ r ∈ opcodeMap, r.mask = 0xF000 ∨ r.mask = 0xFFFF ∨
    (r.mask = 0xF00F ∧ (fieldOp r.bits = 0x5 ∨ fieldOp r.bits = 0x8 ∨ fieldOp r.bits = 0x9)) ∨
    (r.mask = 0xF0FF ∧ (fieldOp r.bits = 0xE ∨ fieldOp r.bits = 0xF)) := by decide

/-- A row of more than the four leading bits names the instruction of its own bits. -/
theorem opcodeMap_mnemonic :
    ∀ r ∈ opcodeMap, r.mask ≠ 0xF000 → mnemonicOf (decodeWord r.bits) = r.mnemonic := by decide

theorem opcodeMap_weight : ∀ r ∈ opcodeMap, maskWeight r.mask ≤ maskWeight 0xF000 → r.mask = 0xF000 := by decide

theorem opcodeMap_unique : ∀ r ∈ opcodeMap, ∀ r' ∈ opcodeMap, r.mask = r'.mask → r.bits = r'.bits → r = r' := by decide

theorem rowMatches_iff (r : OpcodeRow) (w : Word) : rowMatches r w = true ↔ w &&& r.mask = r.bits := beq_iff_eq

/-- Two rows of one mask that hold one word are one row. -/
theorem row_eq_of_mask_eq {w : Word} {r r' : OpcodeRow} (hr : r ∈ opcodeMap) (hr' : r' ∈ opcodeMap)
    (h : rowMatches r w = true) (h' : rowMatches r' w = true) (hmask : r.mask = r'.mask) : r = r' := by
  rw [rowMatches_iff] at h h'
  exact opcodeMap_unique r hr r' hr' hmask (by rw [← h, ← h', hmask])

/-- A row of more than the four leading bits decides the mnemonic of every word it holds. -/
theorem mnemonicOf_of_specific_row {w : Word} {r : OpcodeRow} (hr : r ∈ opcodeMap) (h : rowMatches r w = true)
    (hmask : r.mask ≠ 0xF000) : mnemonicOf (decodeWord w) = r.mnemonic := by
  rw [rowMatches_iff] at h
  rw [← opcodeMap_mnemonic r hr hmask]
  rcases opcodeMap_masks r hr with hm | hm | ⟨hm, hfam⟩ | ⟨hm, hfam⟩
  · exact absurd hm hmask
  · have hw : w = r.bits := by rw [← h, hm]; exact (BitVec.and_allOnes (x := w)).symm
    rw [hw]
  · rw [hm] at h
    exact mnemonicOf_decodeWord_low (by rw [← h, fieldOp_and_low]) (by rw [← h, fieldN_and_low]) hfam
  · rw [hm] at h
    exact mnemonicOf_decodeWord_lowByte (by rw [← h, fieldOp_and_lowByte]) (by rw [← h, fieldNN_and_lowByte]) hfam

/-- Every instruction's word belongs to the row of its mnemonic: the lemmas of Laws/PerInstr.lean in one. -/
theorem Laws.EncodeMatchesRow.all : ∀ i : Instr, Laws.EncodeMatchesRow.Statement i
  | .cls => cls
  | .ret => ret
  | .sys nnn => sys nnn
  | .jp nnn => jp nnn
  | .call nnn => call nnn
  | .seImm x nn => seImm x nn
  | .sneImm x nn => sneImm x nn
  | .seReg x y => seReg x y
  | .reserved5 x y n => reserved5 x y n
  | .ldImm x nn => ldImm x nn
  | .addImm x nn => addImm x nn
  | .ldReg x y => ldReg x y
  | .orReg x y => orReg x y
  | .andReg x y => andReg x y
  | .xorReg x y => xorReg x y
  | .addReg x y => addReg x y
  | .subReg x y => subReg x y
  | .shrReg x y => shrReg x y
  | .subnReg x y => subnReg x y
  | .shlReg x y => shlReg x y
  | .aluNop x y n => aluNop x y n
  | .sneReg x y => sneReg x y
  | .reserved9 x y n => reserved9 x y n
  | .ldIndex nnn => ldIndex nnn
  | .jpV0 nnn => jpV0 nnn
  | .rnd x nn => rnd x nn
  | .drw x y n => drw x y n
  | .skp x => skp x
  | .sknp x => sknp x
  | .reservedE x nn => reservedE x nn
  | .ldVxDt x => ldVxDt x
  | .ldVxKey x => ldVxKey x
  | .ldDtVx x => ldDtVx x
  | .ldStVx x => ldStVx x
  | .addIndex x => addIndex x
  | .ldFont x => ldFont x
  | .ldBcd x => ldBcd x
  | .dumpRegs x => dumpRegs x
  | .loadRegs x => loadRegs x
  | .reservedF x nn => reservedF x nn

/-- The map has a row of the decoded instruction's mnemonic that holds the word. -/
theorem decoded_row (w : Word) : ∃ r ∈ opcodeMap, r.mnemonic = mnemonicOf (decodeWord w) ∧ rowMatches r w = true := by
  obtain ⟨-, henc⟩ := isWordOf_decodeWord w
  obtain ⟨r, hr, hname, h⟩ := Laws.EncodeMatchesRow.all (decodeWord w)
  exact ⟨r, hr, hname, henc ▸ h⟩

/-- Settles O3: a row of more than the four leading bits decides the mnemonic outright; when the longest row has only
those four, the decoded instruction's own row has no more, and two rows of one mask that hold one word are one. -/
theorem longestMaskRowIsDecoded : Obligations.LongestMaskRowIsDecoded := by
  refine ⟨fun w => ?total, fun w r r' => row_eq_of_mask_eq, fun w r hr h hmax => ?longest⟩
  case total =>
    obtain ⟨r, hr, -, h⟩ := decoded_row w
    exact ⟨r, hr, h⟩
  case longest =>
    by_cases hmask : r.mask = 0xF000
    · obtain ⟨r', hr', hname, h'⟩ := decoded_row w
      have hmask' : r'.mask = 0xF000 := opcodeMap_weight r' hr' (hmask ▸ hmax r' hr' h')
      rw [← hname, row_eq_of_mask_eq hr' hr h' h (hmask'.trans hmask.symm)]
    · exact mnemonicOf_of_specific_row hr h hmask

/-- Settles O4: each of the fifteen fixed words is evaluated by the decoder. -/
theorem sampleWordsDecode : Obligations.SampleWordsDecode := by
  unfold Obligations.SampleWordsDecode
  decide

end Sys2Proof
end

section
/-! PROOFS. What `exec` answers: the state an instruction completes with, or an error of the list of
spec/60_exceptions.md rule R240 and the state it saw. -/

namespace Sys2Proof.Machine

/-! ## The two outcomes -/

/-- The state an instruction leaves when it completes, with the checks that can raise an error left out; `exec_outcome`
ties it to `exec`. -/
def completion (i : Instr) (s : State) : State :=
  match i with
  | .cls => redraw s fbClear
  | .ret => setPc (setSp s (s.sp.val - 1)) (stackRead s (s.sp.val - 1))
  | .jp nnn => setPc s (addrOperand nnn)
  | .call nnn => setPc (setSp (stackWrite s s.sp.val s.pc) (s.sp.val + 1)) (addrOperand nnn)
  | .seImm x nn => skipIf (readV s x == nn) s
  | .sneImm x nn => skipIf (readV s x != nn) s
  | .seReg x y => skipIf (readV s x == readV s y) s
  | .sneReg x y => skipIf (readV s x != readV s y) s
  | .ldImm x nn => writeV s x nn
  | .addImm x nn => writeV s x (readV s x + nn)
  | .ldReg x y => writeV s x (readV s y)
  | .orReg x y => writeV s x (readV s x ||| readV s y)
  | .andReg x y => writeV s x (readV s x &&& readV s y)
  | .xorReg x y => writeV s x (readV s x ^^^ readV s y)
  | .addReg x y => writeResultThenFlag s x (readV s x + readV s y) (carryOut (readV s x) (readV s y))
  | .subReg x y => writeResultThenFlag s x (readV s x - readV s y) (strictlyGreater (readV s x) (readV s y))
  | .shrReg x y => writeResultThenFlag s x (shiftSource s x y >>> 1) (lowBit (shiftSource s x y))
  | .subnReg x y => writeResultThenFlag s x (readV s y - readV s x) (strictlyGreater (readV s y) (readV s x))
  | .shlReg x y => writeResultThenFlag s x (shiftSource s x y <<< 1) (highBit (shiftSource s x y))
  | .ldIndex nnn => setIndex s (addrOperand nnn)
  | .jpV0 nnn => setPc s (offsetTarget s nnn)
  | .rnd x nn => countDraw (writeV s x (drawByte s &&& nn))
  | .drw x y n => writeV (redraw s (spriteDrawing s x y n).1) flagReg (flagByte (spriteDrawing s x y n).2)
  | .skp x => skipIf (keyDown s (readV s x)) s
  | .sknp x => skipIf (!keyDown s (readV s x)) s
  | .ldVxDt x => writeV s x s.dt
  | .ldVxKey x => if s.keys = 0 then rewindPc s else writeV s x (BitVec.ofNat 8 (lowestSet s.keys))
  | .ldDtVx x => { s with dt := readV s x }
  | .ldStVx x => { s with st := readV s x }
  | .addIndex x => setIndex s (s.index + zext16 (readV s x))
  | .ldFont x => setIndex s (glyphAddress (readV s x))
  | .ldBcd x => { s with mem := storeBytes s.mem s.index.toNat (decimalDigits (readV s x)) }
  | .dumpRegs x => advanceIndex { s with mem := storeBytes s.mem s.index.toNat (readRegs s (copyCount x)) } x
  | .loadRegs x => advanceIndex (writeRegs s 0 (loadBytes s.mem s.index.toNat (copyCount x))) x
  | .sys _ | .aluNop _ _ _ | .reserved5 _ _ _ | .reserved9 _ _ _ | .reservedE _ _ | .reservedF _ _ => s

/-- `Fx0A` repeats itself or writes one register (rule R203). -/
theorem completion_ldVxKey (x : RegIdx) (s : State) :
    completion (.ldVxKey x) s = rewindPc s ∨ ∃ b, completion (.ldVxKey x) s = writeV s x b := by
  by_cases h : s.keys = 0
  · exact .inl (if_pos h)
  · exact .inr ⟨_, if_neg h⟩

theorem withRange_outcome (s t : State) (first count : Nat) :
    withRange s first count (.next t) = .next t ∨ ∃ f, withRange s first count (.next t) = .fault f := by
  unfold withRange
  split
  · exact .inr ⟨_, raise_eq _ s⟩
  · exact .inl rfl

theorem withKey_outcome (s t : State) (k : Byte) :
    withKey s k (.next t) = .next t ∨ ∃ f, withKey s k (.next t) = .fault f := by
  unfold withKey
  split
  · exact .inr ⟨_, raise_eq _ s⟩
  · exact .inl rfl

/-- Every instruction completes or raises an error; none is refused. -/
theorem exec_outcome (i : Instr) (s : State) : exec i s = .next (completion i s) ∨ ∃ f, exec i s = .fault f := by
  cases i with
  | ret =>
    by_cases h : s.sp.val = 0
    · exact .inr ⟨_, if_pos h⟩
    · exact .inl (if_neg h)
  | call nnn =>
    by_cases h : s.sp.val = 16
    · exact .inr ⟨_, if_pos h⟩
    · exact .inl (if_neg h)
  | ldVxKey x => exact .inl (apply_ite Host.Outcome.next (s.keys = 0) _ _).symm
  | skp x => exact withKey_outcome s _ _
  | sknp x => exact withKey_outcome s _ _
  | drw x y n => exact withRange_outcome s _ _ _
  | ldBcd x => exact withRange_outcome s _ _ _
  | dumpRegs x => exact withRange_outcome s _ _ _
  | loadRegs x => exact withRange_outcome s _ _ _
  | reserved5 | reserved9 | reservedE | reservedF => exact .inr ⟨_, rfl⟩
  | _ => exact .inl rfl

/-- An instruction that completes leaves its `completion`. -/
theorem eq_completion_of_exec {i : Instr} {s t : State} (h : exec i s = .next t) : t = completion i s := by
  rcases exec_outcome i s with h' | ⟨f, h'⟩
  · rw [h'] at h
    exact (Host.Outcome.next.inj h).symm
  · rw [h'] at h
    cases h

/-! ## The checks of the instructions that can raise an error -/

theorem exec_ret_empty {s : State} (h : s.sp.val = 0) : exec .ret s = .fault (.stackUnderflow s) := if_pos h

theorem exec_ret_held {s : State} (h : 1 ≤ s.sp.val) : exec .ret s = .next (completion .ret s) :=
  if_neg (Nat.one_le_iff_ne_zero.mp h)

theorem exec_call_full (nnn : BitVec 12) {s : State} (h : s.sp.val = 16) :
    exec (.call nnn) s = .fault (.stackOverflow s) := if_pos h

theorem exec_call_room (nnn : BitVec 12) {s : State} (h : s.sp.val < 16) :
    exec (.call nnn) s = .next (completion (.call nnn) s) := if_neg (Nat.ne_of_lt h)

theorem exec_skp_error {x : RegIdx} {s : State} (h : 15 < (readV s x).toNat) :
    exec (.skp x) s = .fault (.keyIndexOutOfRange (readV s x) s) := withKey_error s h _

theorem exec_sknp_error {x : RegIdx} {s : State} (h : 15 < (readV s x).toNat) :
    exec (.sknp x) s = .fault (.keyIndexOutOfRange (readV s x) s) := withKey_error s h _

theorem exec_drw_error (x y : RegIdx) {n : BitVec 4} {s : State} (hn : 1 ≤ n.toNat)
    (h : 4095 < s.index.toNat + n.toNat - 1) :
    exec (.drw x y n) s = .fault (.memoryOutOfRange (max s.index.toNat 4096) s) := withRange_error s hn (by omega) _

theorem exec_drw_ok (x y : RegIdx) {n : BitVec 4} {s : State}
    (h : n.toNat = 0 ∨ s.index.toNat + n.toNat - 1 ≤ 4095) :
    exec (.drw x y n) s = .next (completion (.drw x y n) s) := withRange_ok s (by omega) _

theorem exec_ldBcd_error (x : RegIdx) {s : State} (h : 4095 < s.index.toNat + 2) :
    exec (.ldBcd x) s = .fault (.memoryOutOfRange (max s.index.toNat 4096) s) :=
  withRange_error s (by omega) (by omega) _

theorem exec_ldBcd_ok (x : RegIdx) {s : State} (h : s.index.toNat + 2 ≤ 4095) :
    exec (.ldBcd x) s = .next (completion (.ldBcd x) s) := withRange_ok s (by omega) _

theorem exec_dumpRegs_error {x : RegIdx} {s : State} (h : 4095 < s.index.toNat + x.toNat) :
    exec (.dumpRegs x) s = .fault (.memoryOutOfRange (max s.index.toNat 4096) s) :=
  withRange_error s (Nat.succ_pos x.toNat) (by omega) _

theorem exec_dumpRegs_ok {x : RegIdx} {s : State} (h : s.index.toNat + x.toNat ≤ 4095) :
    exec (.dumpRegs x) s = .next (completion (.dumpRegs x) s) := withRange_ok s (by rw [copyCount]; omega) _

theorem exec_loadRegs_error {x : RegIdx} {s : State} (h : 4095 < s.index.toNat + x.toNat) :
    exec (.loadRegs x) s = .fault (.memoryOutOfRange (max s.index.toNat 4096) s) :=
  withRange_error s (Nat.succ_pos x.toNat) (by omega) _

theorem exec_loadRegs_ok {x : RegIdx} {s : State} (h : s.index.toNat + x.toNat ≤ 4095) :
    exec (.loadRegs x) s = .next (completion (.loadRegs x) s) := withRange_ok s (by rw [copyCount]; omega) _

theorem exec_reserved5 (x y : RegIdx) (n : BitVec 4) (s : State) :
    exec (.reserved5 x y n) s = .fault (.unknownOpcode (encode (.reserved5 x y n)) s) := rfl

theorem exec_reserved9 (x y : RegIdx) (n : BitVec 4) (s : State) :
    exec (.reserved9 x y n) s = .fault (.unknownOpcode (encode (.reserved9 x y n)) s) := rfl

theorem exec_reservedE (x : RegIdx) (nn : Byte) (s : State) :
    exec (.reservedE x nn) s = .fault (.unknownOpcode (encode (.reservedE x nn)) s) := rfl

theorem exec_reservedF (x : RegIdx) (nn : Byte) (s : State) :
    exec (.reservedF x nn) s = .fault (.unknownOpcode (encode (.reservedF x nn)) s) := rfl

theorem sp_pos_of_exec_ret {s t : State} (h : exec .ret s = .next t) : 1 ≤ s.sp.val := by
  by_contra hsp
  rw [exec_ret_empty (by omega)] at h
  cases h

theorem sp_lt_of_exec_call {nnn : BitVec 12} {s t : State} (h : exec (.call nnn) s = .next t) : s.sp.val < 16 := by
  by_contra hsp
  rw [exec_call_full nnn (by omega)] at h
  cases h

theorem range_of_exec_dumpRegs {x : RegIdx} {s t : State} (h : exec (.dumpRegs x) s = .next t) :
    s.index.toNat + x.toNat ≤ 4095 := by
  by_contra hrange
  rw [exec_dumpRegs_error (by omega)] at h
  cases h

theorem range_of_exec_ldBcd {x : RegIdx} {s t : State} (h : exec (.ldBcd x) s = .next t) :
    s.index.toNat + 2 ≤ 4095 := by
  by_contra hrange
  rw [exec_ldBcd_error x (by omega)] at h
  cases h

/-! ## The list of errors (rule R240) -/

/-- Settles O8: the check of each instruction that has one, as its `fault` lemma states it; the others complete from
every state. -/
theorem errorsComeOnlyFromTheirInstructions : Obligations.ErrorsComeOnlyFromTheirInstructions := by
  intro i s f h
  cases i with
  | ret =>
    by_cases hsp : s.sp.val = 0
    · rw [exec_ret_empty hsp, Host.Outcome.fault.injEq] at h
      exact .inl ⟨rfl, hsp, h.symm⟩
    · rw [exec_ret_held (by omega)] at h
      cases h
  | call nnn =>
    by_cases hsp : s.sp.val = 16
    · rw [exec_call_full nnn hsp, Host.Outcome.fault.injEq] at h
      exact .inr (.inl ⟨nnn, rfl, hsp, h.symm⟩)
    · rw [exec_call_room nnn (by omega)] at h
      cases h
  | skp x => exact .inr (.inr (.inl ⟨x, .inl rfl, withKey_fault h⟩))
  | sknp x => exact .inr (.inr (.inl ⟨x, .inr rfl, withKey_fault h⟩))
  | drw x y n =>
    obtain ⟨hn, hrange, hf⟩ := withRange_fault h
    exact .inr (.inr (.inr (.inl ⟨hf, .inl ⟨x, y, n, rfl, hn, by omega⟩⟩)))
  | ldBcd x =>
    obtain ⟨-, hrange, hf⟩ := withRange_fault h
    exact .inr (.inr (.inr (.inl ⟨hf, .inr (.inl ⟨x, rfl, by omega⟩)⟩)))
  | dumpRegs x =>
    obtain ⟨-, hrange, hf⟩ := withRange_fault h
    rw [copyCount] at hrange
    exact .inr (.inr (.inr (.inl ⟨hf, .inr (.inr ⟨x, .inl rfl, by omega⟩)⟩)))
  | loadRegs x =>
    obtain ⟨-, hrange, hf⟩ := withRange_fault h
    rw [copyCount] at hrange
    exact .inr (.inr (.inr (.inl ⟨hf, .inr (.inr ⟨x, .inr rfl, by omega⟩)⟩)))
  | reserved5 x y n =>
    rw [exec_reserved5, Host.Outcome.fault.injEq] at h
    exact .inr (.inr (.inr (.inr ⟨h.symm, .inl ⟨x, y, n, .inl rfl⟩⟩)))
  | reserved9 x y n =>
    rw [exec_reserved9, Host.Outcome.fault.injEq] at h
    exact .inr (.inr (.inr (.inr ⟨h.symm, .inl ⟨x, y, n, .inr rfl⟩⟩)))
  | reservedE x nn =>
    rw [exec_reservedE, Host.Outcome.fault.injEq] at h
    exact .inr (.inr (.inr (.inr ⟨h.symm, .inr ⟨x, nn, .inl rfl⟩⟩)))
  | reservedF x nn =>
    rw [exec_reservedF, Host.Outcome.fault.injEq] at h
    exact .inr (.inr (.inr (.inr ⟨h.symm, .inr ⟨x, nn, .inr rfl⟩⟩)))
  | ldVxKey x =>
    by_cases hkeys : s.keys = 0
    · rw [exec_ldVxKey_none x hkeys] at h
      cases h
    · rw [exec_ldVxKey_held x hkeys] at h
      cases h
  | _ => cases h

end Sys2Proof.Machine
end

section
/-! PROOFS. The invariant: memory in canonical form, the range of `pc`, the return addresses held
(spec/10_state.md rules R24, R28). -/

namespace Sys2Proof.Machine

/-! ## The state an instruction sees -/

/-- What the fetch stage makes of the invariant: `pc` is an address that could be fetched, advanced by 2. -/
structure FetchedInv (s : State) : Prop where
  memory : Memory.wf s.mem = true
  counter : 2 ≤ s.pc.toNat ∧ s.pc.toNat ≤ 4096
  returns : ∀ i, i < s.sp.val → (stackRead s i).toNat ≤ 4096

theorem advancePc_toNat {s : State} (h : s.pc.toNat ≤ 4350) : (advancePc s).pc.toNat = s.pc.toNat + 2 := by
  rw [advancePc_pc]
  bv_omega

theorem fetchedInv_advancePc {s : State} (h : MachineInv s) (hpc : s.pc.toNat ≤ 4094) : FetchedInv (advancePc s) where
  memory := h.memory
  counter := by rw [advancePc_toNat h.counter]; omega
  returns := h.returns

/-! ## Each part through one instruction -/

/-- An instruction leaves memory as it was, or stores bytes from `I` on. -/
theorem completion_mem (i : Instr) (s : State) :
    (completion i s).mem = s.mem ∨ ∃ bs, (completion i s).mem = storeBytes s.mem s.index.toNat bs := by
  cases i with
  | ldBcd x => exact .inr ⟨_, rfl⟩
  | dumpRegs x => exact .inr ⟨_, advanceIndex_mem _ x⟩
  | ldVxKey x =>
    left
    rcases completion_ldVxKey x s with hc | ⟨b, hc⟩
    · rw [hc, rewindPc_mem]
    · rw [hc, writeV_mem]
  | loadRegs | seImm | sneImm | seReg | sneReg | skp | sknp => exact .inl (by simp [completion])
  | _ => exact .inl rfl

theorem wf_completion (i : Instr) {s : State} (h : Memory.wf s.mem = true) :
    Memory.wf (completion i s).mem = true := by
  rcases completion_mem i s with hm | ⟨bs, hm⟩
  · rwa [hm]
  · rw [hm]
    exact wf_storeBytes bs h s.index.toNat

theorem offsetTarget_toNat (s : State) (nnn : BitVec 12) :
    (offsetTarget s nnn).toNat = nnn.toNat + (readV s 0).toNat := by
  have hv : (zext16 (readV s 0)).toNat = (readV s 0).toNat := BitVec.toNat_setWidth_of_le (by decide)
  have hnnn := nnn.isLt
  have hbyte := (readV s 0).isLt
  rw [offsetTarget, BitVec.toNat_add, addrOperand_toNat, hv]
  omega

theorem skipIf_pc_le (c : Bool) {s : State} (h : FetchedInv s) : (skipIf c s).pc.toNat ≤ 4350 := by
  obtain ⟨-, hpc⟩ := h.counter
  cases c with
  | false => exact Nat.le_trans hpc (by decide)
  | true => rw [skipIf, if_pos rfl, advancePc_toNat (by omega)]; omega

/-- `pc` after an instruction: a return takes it from the stack, `Bnnn` reaches farthest with `nnn` + 255. -/
theorem completion_pc_le {i : Instr} {s t : State} (h : FetchedInv s) (hexec : exec i s = .next t) :
    (completion i s).pc.toNat ≤ 4350 := by
  obtain ⟨hlow, hpc⟩ := h.counter
  have same : s.pc.toNat ≤ 4350 := by omega
  have absolute (nnn : BitVec 12) : (addrOperand nnn).toNat ≤ 4350 := by
    rw [addrOperand_toNat]
    omega
  cases i with
  | ret =>
    have hsp := sp_pos_of_exec_ret hexec
    exact Nat.le_trans (h.returns (s.sp.val - 1) (by omega)) (by decide)
  | jp nnn => exact absolute nnn
  | call nnn => exact absolute nnn
  | jpV0 nnn =>
    have hbyte := (readV s 0).isLt
    rw [completion, setPc_pc, offsetTarget_toNat]
    omega
  | seImm | sneImm | seReg | sneReg | skp | sknp => exact skipIf_pc_le _ h
  | ldVxKey x =>
    rcases completion_ldVxKey x s with hc | ⟨b, hc⟩
    · rw [hc, rewindPc_pc]
      bv_omega
    · rwa [hc, writeV_pc]
  | dumpRegs | loadRegs => simpa [completion] using same
  | _ => exact same

/-- The return addresses held after an instruction: a call adds the fetched `pc`, a return gives one up. -/
theorem completion_returns {i : Instr} {s t : State} (h : FetchedInv s) (hexec : exec i s = .next t) :
    ∀ k, k < (completion i s).sp.val → (stackRead (completion i s) k).toNat ≤ 4096 := by
  intro k hk
  have same {u : State} (hsp : u.sp.val ≤ s.sp.val) (hstack : u.stack = s.stack) (hk : k < u.sp.val) :
      (stackRead u k).toNat ≤ 4096 := by
    rw [stackRead_of_stack_eq hstack]
    exact h.returns k (by omega)
  cases i with
  | call nnn =>
    have hsp := sp_lt_of_exec_call hexec
    have hk' : k < s.sp.val + 1 := by simpa [completion, Nat.mod_eq_of_lt (show s.sp.val + 1 < 17 by omega)] using hk
    change (stackRead (stackWrite s s.sp.val s.pc) k).toNat ≤ 4096
    rw [stackRead_stackWrite s hsp]
    split
    · exact h.counter.2
    · exact h.returns k (by omega)
  | ret => exact same (by simp [completion]; omega) rfl hk
  | seImm | sneImm | seReg | sneReg | skp | sknp | dumpRegs | loadRegs =>
    exact same (by simp [completion]) (by simp [completion]) hk
  | ldVxKey x =>
    rcases completion_ldVxKey x s with hc | ⟨b, hc⟩
    · exact same (by rw [hc, rewindPc_sp]) (by rw [hc, rewindPc_stack]) hk
    · exact same (by rw [hc, writeV_sp]) (by rw [hc, writeV_stack]) hk
  | _ => exact same (Nat.le_refl _) rfl hk

/-- One instruction makes the machine's invariant of the invariant of the fetched state. -/
theorem exec_keeps_inv {i : Instr} {s t : State} (h : FetchedInv s) (hexec : exec i s = .next t) : MachineInv t := by
  rw [eq_completion_of_exec hexec]
  exact ⟨wf_completion i h.memory, completion_pc_le h hexec, completion_returns h hexec⟩

/-- Settles O15: a step that answers a next state has fetched from at most 4094, so the instruction sees the invariant
of the fetched state, and each part goes through one instruction. -/
theorem everyStepKeepsTheInvariant : Obligations.EveryStepKeepsTheInvariant := by
  intro s t h hstep
  rcases step_cases s with ⟨-, hfault⟩ | ⟨hpc, hexec⟩
  · rw [hfault] at hstep
    cases hstep
  · rw [hexec] at hstep
    exact exec_keeps_inv (fetchedInv_advancePc h hpc) hstep

end Sys2Proof.Machine
end

section
/-! PROOFS. The cycle (spec/30_encoding.md rule R100) and its errors (spec/60_exceptions.md): what it fetches, how it
ends, what an error leaves, and on what an error does not depend. -/

namespace Sys2Proof.Machine

/-! ## The fetched word -/

/-- A step whose fetch leaves memory is the fetch's error. -/
theorem step_fetch_error {s : State} (h : 4095 ≤ s.pc.toNat) :
    step s = .fault (.memoryOutOfRange (max s.pc.toNat 4096) s) := by
  rw [step, fetch_error s (by omega)]

/-- Settles O5: the two bytes make the word at `pc`, so the decoded instruction is the one the step runs. -/
theorem stepRunsTheDecodedInstruction : Obligations.StepRunsTheDecodedInstruction := by
  intro s i hpc hdecode _
  have hword : decodeWord (wordAt s.mem s.pc.toNat) = i := by
    simpa [decode, wordAt] using hdecode
  rw [step_eq_exec hpc, hword]
  rfl

/-- Settles O6: the high byte of the joined word counts 256; above 4094 the fetch raises its error. -/
theorem fetchIsBigEndianAndStaysInMemory : Obligations.FetchIsBigEndianAndStaysInMemory := by
  refine ⟨fun m a => ?bigEndian, fun s h => step_fetch_error h⟩
  have hlow := (memRead m (a + 1)).isLt
  rw [wordAt, joinBytes, BitVec.toNat_append, ← Nat.shiftLeft_add_eq_or_of_lt hlow, Nat.shiftLeft_eq]
  omega

/-! ## How a cycle ends -/

theorem errorCode_le (f : Fault) : errorCode f ≤ 5 := by
  cases f <;> simp [errorCode]

/-- A cycle ends with a next state or an error: so do the fetch and every instruction. -/
theorem step_outcome (s : State) : (∃ t, step s = .next t) ∨ ∃ f, step s = .fault f := by
  rcases step_cases s with ⟨-, h⟩ | ⟨-, h⟩
  · exact .inr ⟨_, h⟩
  · rw [h]
    exact (exec_outcome _ _).imp_left fun hexec => ⟨_, hexec⟩

/-- Settles O7: a next state has code 0, and the five errors have the codes 1 to 5. -/
theorem everyCycleEndsInOkOrOneError : Obligations.EveryCycleEndsInOkOrOneError := by
  intro s
  rcases step_outcome s with ⟨t, h⟩ | ⟨f, h⟩
  · exact ⟨0, Nat.zero_le 5, congrArg resultCode h⟩
  · exact ⟨errorCode f, errorCode_le f, congrArg resultCode h⟩

/-! ## The state an error leaves -/

/-- An instruction that raises an error leaves the state it saw (rule R246). -/
theorem stateLeft_of_exec {i : Instr} {s : State} {f : Fault} (h : exec i s = .fault f) : stateLeft f = s := by
  obtain ⟨-, -, rfl⟩ | ⟨_, -, -, rfl⟩ | ⟨_, -, -, rfl⟩ | ⟨rfl, -⟩ | ⟨rfl, -⟩ :=
    errorsComeOnlyFromTheirInstructions i s f h
  all_goals rfl

/-- Settles O9: an error of the fetch leaves the state itself, a later one the state the instruction saw. -/
theorem faultingCycleLeavesOnlyPcAdvanced : Obligations.FaultingCycleLeavesOnlyPcAdvanced := by
  intro s f h
  rcases step_cases s with ⟨hpc, hstep⟩ | ⟨hpc, hstep⟩
  · rw [hstep, Host.Outcome.fault.injEq] at h
    rw [if_pos (by omega), ← h]
    rfl
  · rw [if_neg (by omega), stateLeft_of_exec (hstep ▸ h)]
    rfl

/-- A cycle leaves what its instruction completes with, or it faults and leaves `s` with `pc` advanced or not at all. -/
theorem afterCycle_cases (s : State) :
    afterCycle s = s ∨ (s.pc.toNat ≤ 4094 ∧ afterCycle s = advancePc s) ∨
      (step s = .next (afterCycle s) ∧
        afterCycle s = completion (decodeWord (wordAt s.mem s.pc.toNat)) (advancePc s)) := by
  rcases step_cases s with ⟨-, hstep⟩ | ⟨hpc, hstep⟩
  · left
    rw [afterCycle, hstep]
    rfl
  · rcases exec_outcome (decodeWord (wordAt s.mem s.pc.toNat)) (advancePc s) with hexec | ⟨f, hexec⟩
    · right; right
      rw [hexec] at hstep
      rw [afterCycle, hstep]
      exact ⟨rfl, rfl⟩
    · right; left
      rw [afterCycle, hstep, hexec]
      exact ⟨hpc, stateLeft_of_exec hexec⟩

/-- Settles O11: the reserved classes raise the error from every state; a cycle that ends so ran a reserved word, whose
encoding is the word at `pc`, and the state it leaves is that of the no-op. -/
theorem reservedWordsRaiseUnknownOpcode : Obligations.ReservedWordsRaiseUnknownOpcode := by
  refine ⟨exec_reserved5, exec_reserved9, exec_reservedE, exec_reservedF, fun s w left h => ?cycle⟩
  rcases step_cases s with ⟨-, hstep⟩ | ⟨hpc, hstep⟩
  · rw [hstep] at h
    cases h
  · have hexec := hstep.symm.trans h
    have hword : w = wordAt s.mem s.pc.toNat := by
      rcases errorsComeOnlyFromTheirInstructions _ _ _ hexec with
        ⟨-, -, hf⟩ | ⟨_, -, -, hf⟩ | ⟨_, -, -, hf⟩ | ⟨hf, -⟩ | ⟨hf, -⟩
      case inr.inr.inr.inr =>
        rw [Fault.unknownOpcode.injEq, (everyWordIsItsInstructionsWord _).2] at hf
        exact hf.1
      all_goals cases hf
    refine ⟨hword, ?_⟩
    rw [unknownOpcode_ignore, afterCycle, h]
    exact congrArg Host.Outcome.next (stateLeft_of_exec hexec).symm

/-- One more cycle of a run is a step and the rest of the run. -/
theorem run_succ_of_next {M : Host.Core} {s t : M.State} (h : M.step s = .next t) (k : Nat) :
    M.run (k + 1) s = M.run k t := by
  rw [Host.Core.run, h]

theorem run_succ_of_fault {M : Host.Core} {s : M.State} {f : M.Fault} (h : M.step s = .fault f) (k : Nat) :
    M.run (k + 1) s = .fault f := by
  rw [Host.Core.run, h]

theorem hostLoop_cons_of_next {s t : State} (hrunning : s.running = true) (h : step s = .next t) (g : Gap)
    (gs : List Gap) : hostLoop s (g :: gs) = hostLoop (applyGap t g) gs := by
  rw [hostLoop, if_pos hrunning, h]

theorem hostLoop_cons_of_fault {s : State} {f : Fault} (hrunning : s.running = true) (h : step s = .fault f) (g : Gap)
    (gs : List Gap) : hostLoop s (g :: gs) = .fault f := by
  rw [hostLoop, if_pos hrunning, h]

/-- Settles O12: a run and a running loop both begin with the step that faults. -/
theorem errorEndsEveryRun : Obligations.ErrorEndsEveryRun := by
  intro s f h
  refine ⟨fun k => ?run, fun hrunning g gs => ?loop⟩
  case run =>
    rintro ⟨t, hrun⟩
    cases (run_succ_of_fault (M := Sys2Proof.core) h k).symm.trans hrun
  case loop =>
    rintro ⟨t, hloop⟩
    cases (hostLoop_cons_of_fault hrunning h g gs).symm.trans hloop

/-! ## What an error does not depend on (rule R247) -/

/-- Two states that differ only in what the adapters and the random source own fault alike in one instruction. -/
theorem exec_fault_of_sameButInputs {i : Instr} {s t : State} {f : Fault} (hst : SameButInputs s t)
    (h : exec i s = .fault f) :
    ∃ g, exec i t = .fault g ∧ errorCode g = errorCode f ∧ recordedValue g = recordedValue f := by
  have hsp : t.sp.val = s.sp.val := congrArg Fin.val hst.sp
  have hindex : t.index.toNat = s.index.toNat := congrArg BitVec.toNat hst.index
  have hreg (x : RegIdx) : readV t x = readV s x := readV_of_v_eq hst.v x
  rcases errorsComeOnlyFromTheirInstructions i s f h with
    ⟨rfl, hempty, rfl⟩ | ⟨nnn, rfl, hfull, rfl⟩ | ⟨x, hi, hkey, rfl⟩ | ⟨rfl, hmem⟩ | ⟨rfl, hreserved⟩
  · exact ⟨_, exec_ret_empty (hsp.trans hempty), rfl, rfl⟩
  · exact ⟨_, exec_call_full nnn (hsp.trans hfull), rfl, rfl⟩
  · rw [← hreg] at hkey ⊢
    rcases hi with rfl | rfl
    · exact ⟨_, exec_skp_error hkey, rfl, rfl⟩
    · exact ⟨_, exec_sknp_error hkey, rfl, rfl⟩
  · rw [← hindex] at hmem ⊢
    rcases hmem with ⟨x, y, n, rfl, hn, hrange⟩ | ⟨x, rfl, hrange⟩ | ⟨x, rfl | rfl, hrange⟩
    · exact ⟨_, exec_drw_error x y hn hrange, rfl, rfl⟩
    · exact ⟨_, exec_ldBcd_error x hrange, rfl, rfl⟩
    · exact ⟨_, exec_dumpRegs_error hrange, rfl, rfl⟩
    · exact ⟨_, exec_loadRegs_error hrange, rfl, rfl⟩
  · rcases hreserved with ⟨x, y, n, rfl | rfl⟩ | ⟨x, nn, rfl | rfl⟩
    all_goals exact ⟨_, rfl, rfl, rfl⟩

theorem sameButInputs_advancePc {s t : State} (h : SameButInputs s t) :
    SameButInputs (advancePc s) (advancePc t) :=
  { h with pc := by rw [advancePc_pc, advancePc_pc, h.pc] }

/-- Settles O10: the fetch reads `pc` and memory alone, so both cycles fault in it or both run one instruction. -/
theorem errorsDependOnNoInput : Obligations.ErrorsDependOnNoInput := by
  intro s t f hst h
  have hpc : t.pc.toNat = s.pc.toNat := congrArg BitVec.toNat hst.pc
  rcases step_cases s with ⟨hfetch, hstep⟩ | ⟨hfetch, hstep⟩
  · rw [hstep, Host.Outcome.fault.injEq] at h
    subst h
    exact ⟨_, step_fetch_error (by omega), rfl, congrArg (fun a => some (max a 4096)) hpc⟩
  · rw [step_eq_exec (s := t) (by omega), hpc, hst.mem]
    exact exec_fault_of_sameButInputs (sameButInputs_advancePc hst) (hstep ▸ h)

end Sys2Proof.Machine
end

section
/-! PROOFS. What no instruction writes or reads: `KEYS`, `running` and the quirk flags; `ST` and `running`
(spec/10_state.md rules R27, R29, R30, R32, R41); and the loop (rule R40). -/

namespace Sys2Proof.Machine

/-! ## The fields no instruction writes -/

/-- `KEYS`, `running` and the quirk flags are in both states the same. -/
structure SameHostFields (s t : State) : Prop where
  keys : t.keys = s.keys
  running : t.running = s.running
  quirkShift : t.quirkShift = s.quirkShift
  quirkLoad : t.quirkLoad = s.quirkLoad

theorem sameHostFields_completion (i : Instr) (s : State) : SameHostFields s (completion i s) := by
  cases i with
  | seImm | sneImm | seReg | sneReg | skp | sknp | dumpRegs | loadRegs =>
    constructor <;> simp [completion]
  | ldVxKey x =>
    rcases completion_ldVxKey x s with hc | ⟨b, hc⟩
    · rw [hc]; exact ⟨rfl, rfl, rfl, rfl⟩
    · rw [hc]; exact ⟨rfl, rfl, rfl, rfl⟩
  | _ => exact ⟨rfl, rfl, rfl, rfl⟩

theorem sameHostFields_afterCycle (s : State) : SameHostFields s (afterCycle s) := by
  rcases afterCycle_cases s with h | ⟨-, h⟩ | ⟨-, h⟩
  · rw [h]; exact ⟨rfl, rfl, rfl, rfl⟩
  · rw [h]; exact ⟨rfl, rfl, rfl, rfl⟩
  · rw [h]
    obtain ⟨hkeys, hrunning, hshift, hload⟩ :=
      sameHostFields_completion (decodeWord (wordAt s.mem s.pc.toNat)) (advancePc s)
    exact ⟨hkeys, hrunning, hshift, hload⟩

/-- Settles O18: no instruction writes the four fields, and an error leaves `pc` advanced at most. -/
theorem noCycleWritesTheHostFields : Obligations.NoCycleWritesTheHostFields := by
  intro s
  obtain ⟨hkeys, hrunning, hshift, hload⟩ := sameHostFields_afterCycle s
  exact ⟨hkeys, hrunning, hshift, hload⟩

/-! ## The fields no instruction reads -/

/-- Other values in `ST` and `running`. -/
def withSound (s : State) (d : Byte) (b : Bool) : State := { s with st := d, running := b }

theorem sameButInputs_withSound (s : State) (d : Byte) (b : Bool) : SameButInputs (withSound s d b) s :=
  ⟨rfl, rfl, rfl, rfl, rfl, rfl, rfl, rfl, rfl⟩

theorem skipIf_withSound (c : Bool) (s : State) (d : Byte) (b : Bool) :
    skipIf c (withSound s d b) = withSound (skipIf c s) d b := by
  cases c <;> rfl

theorem advanceIndex_withSound (s : State) (x : RegIdx) (d : Byte) (b : Bool) :
    advanceIndex (withSound s d b) x = withSound (advanceIndex s x) d b :=
  (apply_ite (withSound · d b) (s.quirkLoad = true) s (setIndex s (s.index + BitVec.ofNat 16 (copyCount x)))).symm

theorem writeRegs_withSound (bs : List Byte) (s : State) (i : Nat) (d : Byte) (b : Bool) :
    writeRegs (withSound s d b) i bs = withSound (writeRegs s i bs) d b := by
  induction bs generalizing s i with
  | nil => rfl
  | cons c bs ih => exact ih (writeV s (BitVec.ofNat 4 i) c) (i + 1)

/-- Every instruction but `Fx18` carries other values in `ST` and `running` through. -/
theorem completion_withSound {i : Instr} (h : ∀ x, i ≠ .ldStVx x) (s : State) (d : Byte) (b : Bool) :
    completion i (withSound s d b) = withSound (completion i s) d b := by
  cases i with
  | ldStVx x => exact absurd rfl (h x)
  | seImm | sneImm | seReg | sneReg | skp | sknp => exact skipIf_withSound _ s d b
  | dumpRegs x => exact advanceIndex_withSound { s with mem := _ } x d b
  | loadRegs x =>
    change advanceIndex (writeRegs (withSound s d b) 0 _) x = _
    rw [writeRegs_withSound, advanceIndex_withSound]
    rfl
  | ldVxKey x =>
    exact (apply_ite (withSound · d b) (s.keys = 0) (rewindPc s)
      (writeV s x (BitVec.ofNat 8 (lowestSet s.keys)))).symm
  | _ => rfl

/-- Settles O19: an error depends on neither field, so the instruction completes again; `Fx18` alone writes `ST`, with
the same register in both runs. -/
theorem noInstructionReadsSoundTimerOrRunning : Obligations.NoInstructionReadsSoundTimerOrRunning := by
  intro i s t d b h
  have hexec : exec i (withSound s d b) = .next (completion i (withSound s d b)) := by
    rcases exec_outcome i (withSound s d b) with h' | ⟨f, h'⟩
    · exact h'
    · obtain ⟨g, hg, -⟩ := exec_fault_of_sameButInputs (sameButInputs_withSound s d b) h'
      rw [h] at hg
      cases hg
  refine ⟨_, hexec, ?_⟩
  rw [eq_completion_of_exec h]
  by_cases hi : ∃ x, i = .ldStVx x
  · obtain ⟨x, rfl⟩ := hi
    exact ⟨rfl, .inl rfl⟩
  · rw [completion_withSound (not_exists.mp hi)]
    exact ⟨rfl, .inr rfl⟩

/-! ## The invariant along the loop -/

/-- No adapter writes what the invariant speaks of. -/
theorem machineInv_moveAdapter {s : State} (h : MachineInv s) (a : AdapterMove) : MachineInv (moveAdapter s a) := by
  obtain ⟨hmem, hpc, hreturns⟩ := h
  cases a <;> exact ⟨hmem, hpc, hreturns⟩

theorem machineInv_applyMoves {s : State} (h : MachineInv s) (m : List AdapterMove) : MachineInv (applyMoves s m) := by
  induction m generalizing s with
  | nil => exact h
  | cons a m ih => exact ih (machineInv_moveAdapter h a)

theorem machineInv_hostLoop {gs : List Gap} {s t : State} (h : MachineInv s) (hloop : hostLoop s gs = .next t) :
    MachineInv t := by
  induction gs generalizing s with
  | nil =>
    cases hloop
    exact h
  | cons g gs ih =>
    rw [hostLoop] at hloop
    split at hloop
    · split at hloop
      · next u hstep => exact ih (machineInv_applyMoves (everyStepKeepsTheInvariant s u h hstep) g.moves) hloop
      · cases hloop
      · cases hloop
    · cases hloop
      exact h

/-- An error leaves the state as it was, or `pc` advanced from where it could be fetched. -/
theorem machineInv_afterCycle {s : State} (h : MachineInv s) : MachineInv (afterCycle s) := by
  rcases afterCycle_cases s with hleft | ⟨hpc, hleft⟩ | ⟨hstep, -⟩
  · rwa [hleft]
  · rw [hleft]
    obtain ⟨hmem, ⟨-, hcounter⟩, hreturns⟩ := fetchedInv_advancePc h hpc
    exact ⟨hmem, Nat.le_trans hcounter (by decide), hreturns⟩
  · exact everyStepKeepsTheInvariant s _ h hstep

/-- Settles O17: the loop is steps and adapter moves in turn, and a cycle is a step or an error. -/
theorem loopAndFaultsKeepTheInvariant : Obligations.LoopAndFaultsKeepTheInvariant :=
  ⟨fun _ _ _ => machineInv_hostLoop, fun _ => machineInv_afterCycle⟩

end Sys2Proof.Machine
end

section
/-! PROOFS. Reset and construction (spec/10_state.md rule R43, spec/70_reset_and_hazards.md). -/

namespace Sys2Proof.Machine

/-- Outside the font region an address that memory does not list reads as 0. -/
theorem unlistedByte_outside_font {a : Nat} (h : a < 80 ∨ 160 ≤ a) : unlistedByte a = 0 :=
  if_neg (by rw [Config.fontBase]; omega)

/-- Settles O13: every field by its value in `State.reset`; its memory lists nothing, so it reads as 0 outside the font. -/
theorem resetValues : Obligations.ResetValues := by
  refine ⟨rfl, fun r => ?registers, rfl, rfl, fun i => ?stack, rfl, rfl, rfl, fbRead_fbClear, rfl, rfl,
    fun a => unlistedByte_outside_font⟩
  case registers => exact Vector.getElem_replicate r.isLt
  case stack =>
    unfold stackRead
    split
    · next h => exact Vector.getElem_replicate h
    · rfl

theorem bootLegal_iff (font program : List Byte) :
    bootLegal font program = true ↔ font.length = 80 ∧ program.length ≤ 3584 := by
  rw [bootLegal, Bool.and_eq_true, decide_eq_true_eq, decide_eq_true_eq, Config.maxProgram]

/-- The machine that legal arguments construct. -/
theorem construct_legal (qs ql : Bool) {font program : List Byte} (hf : font.length = 80)
    (hp : program.length ≤ 3584) : construct qs ql font program =
      some { State.reset with quirkShift := qs, quirkLoad := ql, mem := bootImage font program } :=
  if_pos ((bootLegal_iff font program).mpr ⟨hf, hp⟩)

theorem construct_eq_none_iff (qs ql : Bool) (font program : List Byte) :
    construct qs ql font program = none ↔ font.length ≠ 80 ∨ 3584 < program.length := by
  rw [construct, ite_eq_right_iff, bootLegal_iff]
  constructor
  · intro h
    by_contra hlegal
    cases h (by omega)
  · intro h hlegal
    omega

theorem wf_bootImage (font program : List Byte) : Memory.wf (bootImage font program) = true :=
  wf_storeBytes program (wf_storeBytes font wf_nil Config.fontBase) Config.programBase

/-- The initial image byte by byte (rule R283). -/
theorem memRead_bootImage {font program : List Byte} (hf : font.length = 80) (hp : program.length ≤ 3584) (a : Nat) :
    memRead (bootImage font program) a =
      if 512 ≤ a ∧ a < 512 + program.length then program.getD (a - 512) 0
      else if 80 ≤ a ∧ a < 160 then font.getD (a - 80) 0 else unlistedByte a := by
  have hwf := wf_storeBytes font wf_nil Config.fontBase
  rw [bootImage, memRead_storeBytes program hwf _ (by rw [Config.programBase, Config.memorySize]; omega),
    memRead_storeBytes font wf_nil _ (by rw [Config.fontBase, Config.memorySize]; omega), hf]
  rfl

theorem customaryFont_length : Config.customaryFont.length = 80 := rfl

/-- The customary font over an empty memory lists nothing: those are the bytes an unlisted address reads as. -/
theorem bootImage_customaryFont : bootImage Config.customaryFont [] = [] := by
  refine wf_ext (wf_bootImage _ _) wf_nil fun a => ?_
  rw [memRead_bootImage customaryFont_length (Nat.zero_le _), if_neg (by rw [List.length_nil]; omega)]
  split
  · next h => exact (if_pos h).symm
  · rfl

/-- Settles O14: the three regions of the initial image do not meet, construction is refused exactly when its arguments
are not legal, and the customary font leaves the memory of `State.reset`. -/
theorem constructionPlacesItsArguments : Obligations.ConstructionPlacesItsArguments := by
  refine ⟨fun qs ql font program hf hp => ?legal, construct_eq_none_iff, ?reset⟩
  case legal =>
    have hread := memRead_bootImage hf hp
    refine ⟨_, construct_legal qs ql hf hp, rfl, rfl, fun i hi => ?font, fun i hi => ?program, fun a ha => ?other, rfl⟩
    case font => rw [hread, if_neg (by omega), if_pos (by omega), Nat.add_sub_cancel_left]
    case program => rw [hread, if_pos (by omega), Nat.add_sub_cancel_left]
    case other => rw [hread, if_neg (by omega), if_neg (by omega), unlistedByte_outside_font (by omega)]
  case reset =>
    rw [construct_legal false false customaryFont_length (Nat.zero_le _), bootImage_customaryFont]
    rfl

/-- Whatever the quirk flags and a canonical memory are, the reset values meet the invariant: `pc` is 512 and no return
address is held. -/
theorem machineInv_reset (qs ql : Bool) {m : Memory} (h : Memory.wf m = true) :
    MachineInv { State.reset with quirkShift := qs, quirkLoad := ql, mem := m } where
  memory := h
  counter := show State.reset.pc.toNat ≤ 4350 by decide
  returns := fun i hi => absurd hi (Nat.not_lt_zero i)

/-- Settles O16: construction gives the reset values with a memory of stored bytes. -/
theorem constructedMachinesMeetTheInvariant : Obligations.ConstructedMachinesMeetTheInvariant := by
  refine ⟨machineInv_reset false false wf_nil, fun qs ql font program t h => ?_⟩
  rw [construct, Option.ite_none_right_eq_some, Option.some.injEq] at h
  obtain ⟨-, rfl⟩ := h
  exact machineInv_reset qs ql (wf_bootImage font program)

end Sys2Proof.Machine
end

section
/-! PROOFS. The adapters and the loop (spec/10_state.md rules R36 to R40). -/

namespace Sys2Proof.Machine

/-- Moves with at most one tick count each timer down once if there is one, and else leave it (rule R36). -/
theorem applyMoves_timers_of_count_le_one (s : State) {m : List AdapterMove} (h : m.count .timerTick ≤ 1) :
    (applyMoves s m).dt.toNat = (if .timerTick ∈ m then s.dt.toNat - 1 else s.dt.toNat) ∧
    (applyMoves s m).st.toNat = (if .timerTick ∈ m then s.st.toNat - 1 else s.st.toNat) := by
  induction m generalizing s with
  | nil => exact ⟨rfl, rfl⟩
  | cons a m ih =>
    rw [applyMoves_cons]
    by_cases ha : a = .timerTick
    · subst ha
      rw [List.count_cons_self] at h
      have hm : AdapterMove.timerTick ∉ m := List.count_eq_zero.mp (by omega)
      obtain ⟨hdt, hst⟩ := applyMoves_timers (moveAdapter s .timerTick) hm
      rw [hdt, hst, if_pos List.mem_cons_self, if_pos List.mem_cons_self]
      exact ⟨countDown_toNat s.dt, countDown_toNat s.st⟩
    · rw [List.count_cons_of_ne ha] at h
      obtain ⟨hdt, hst⟩ := moveAdapter_timers s ha
      have hmem : AdapterMove.timerTick ∈ a :: m ↔ AdapterMove.timerTick ∈ m := by
        rw [List.mem_cons, or_iff_right (Ne.symm ha)]
      simpa only [hdt, hst, hmem] using ih (moveAdapter s a) h

/-- Settles O58: a gap has at most one tick, and each move is one update of its own fields. -/
theorem adapterMovesWriteOnlyTheirFields : Obligations.AdapterMovesWriteOnlyTheirFields := by
  refine ⟨fun s g => applyMoves_timers_of_count_le_one s (of_decide_eq_true g.legal), fun s k => ?moves⟩
  exact ⟨countDown_toNat s.dt, countDown_toNat s.st, rfl, rfl, rfl, rfl, rfl⟩

/-- Two moves commute when they do not write two values to `KEYS`: the fields they write are apart. -/
theorem moveAdapter_comm (s : State) {a b : AdapterMove}
    (h : ∀ k k', a = .keypadKeys k → b = .keypadKeys k' → k = k') :
    moveAdapter (moveAdapter s a) b = moveAdapter (moveAdapter s b) a := by
  cases a <;> cases b
  case keypadKeys.keypadKeys k k' => rw [h k k' rfl rfl]
  all_goals rfl

/-- Settles O59: any two moves of the list commute, so the order in which they are folded is immaterial. -/
theorem gapOrderIsImmaterial : Obligations.GapOrderIsImmaterial := by
  intro s m m' hperm hkeys
  refine hperm.foldl_eq' (fun a ha b hb t => moveAdapter_comm t ?_) s
  rintro k k' rfl rfl
  exact hkeys k k' ha hb

theorem running_of_step {s t : State} (h : step s = .next t) : t.running = s.running := by
  have hleft : afterCycle s = t := by rw [afterCycle, h]
  rw [← hleft, (sameHostFields_afterCycle s).running]

/-- Settles O60: no cycle clears `running`, so the loop over idle gaps goes on until a step faults, as the run does. -/
theorem idleLoopIsTheRepeatedCycle : Obligations.IdleLoopIsTheRepeatedCycle := by
  refine ⟨fun k => ?idle, fun s gs hrunning => ?stopped⟩
  case idle =>
    induction k with
    | zero => exact fun s _ => rfl
    | succ k ih =>
      intro s hrunning
      rw [List.replicate_succ]
      rcases step_outcome s with ⟨t, hstep⟩ | ⟨f, hstep⟩
      · rw [hostLoop_cons_of_next hrunning hstep, applyGap_idleGap, ih t ((running_of_step hstep).trans hrunning)]
        exact (run_succ_of_next (M := Sys2Proof.core) hstep k).symm
      · rw [hostLoop_cons_of_fault hrunning hstep]
        exact (run_succ_of_fault (M := Sys2Proof.core) hstep k).symm
  case stopped =>
    cases gs with
    | nil => rfl
    | cons g gs => rw [hostLoop, if_neg (by rw [hrunning]; decide)]

end Sys2Proof.Machine
end

section
/-! PROOFS. Jump, call and return (spec/40_system_jump_call.md). -/

namespace Sys2Proof.Machine

/-- What `1nnn` does (rule R123): it completes from every state. -/
theorem exec_jp (nnn : BitVec 12) (s : State) : exec (.jp nnn) s = .next (setPc s (addrOperand nnn)) := rfl

/-- What `Bnnn` does (rule R125): it completes from every state. -/
theorem exec_jpV0 (nnn : BitVec 12) (s : State) : exec (.jpV0 nnn) s = .next (setPc s (offsetTarget s nnn)) := rfl

/-- A jump back to where a state was fetched gives that state. -/
theorem setPc_advancePc {s : State} {a : Word} (h : a = s.pc) : setPc (advancePc s) a = s := by
  rw [h]
  rfl

/-- Settles O27: `1nnn` writes `pc` alone; the next fetch is decided by the target, and a jump to its own address
undoes the fetch's advance. -/
theorem jumpSetsPc : Obligations.JumpSetsPc := by
  refine ⟨fun nnn s => ?target, fun nnn s hpc hle hword => ?selfJump⟩
  case target =>
    have hpc : (setPc s (addrOperand nnn)).pc.toNat = nnn.toNat := addrOperand_toNat nnn
    refine ⟨_, exec_jp nnn s, hpc, rfl, fun h => ?last, fun h => ?inside⟩
    case last =>
      rw [step_fetch_error (by omega), hpc, h]
      rfl
    case inside =>
      rw [step_eq_exec (by omega), hpc]
      rfl
  case selfJump =>
    have htarget : addrOperand nnn = s.pc := BitVec.eq_of_toNat_eq ((addrOperand_toNat nnn).trans hpc.symm)
    rw [step_eq_exec (by omega), hpc, hword, decodeWord_encode rfl, exec_jp, setPc_advancePc htarget]

/-- Settles O28: `Bnnn` writes `pc` alone, with a sum that does not reach 65536. -/
theorem offsetJumpAddsV0 : Obligations.OffsetJumpAddsV0 := by
  intro nnn s
  exact ⟨_, exec_jpV0 nnn s, offsetTarget_toNat s nnn, rfl⟩

/-- The count after a call that has room. -/
theorem sp_completion_call (nnn : BitVec 12) {s : State} (h : s.sp.val < 16) :
    (completion (.call nnn) s).sp.val = s.sp.val + 1 := Nat.mod_eq_of_lt (by omega)

/-- The entries after a call that has room: the fetched `pc` at the old count, the others as before. -/
theorem stackRead_completion_call (nnn : BitVec 12) {s : State} (h : s.sp.val < 16) (i : Nat) :
    stackRead (completion (.call nnn) s) i = if i = s.sp.val then s.pc else stackRead s i :=
  stackRead_stackWrite s h s.pc i

/-- Settles O29: with room for it the fetched `pc` becomes the entry at the count; without, the check raises the error. -/
theorem callPushesTheFetchedPc : Obligations.CallPushesTheFetchedPc := by
  intro nnn s
  refine ⟨fun h => ?room, exec_call_full nnn⟩
  have hread := stackRead_completion_call nnn h
  refine ⟨_, exec_call_room nnn h, ?entry, fun i hi => ?others, sp_completion_call nnn h, addrOperand_toNat nnn, rfl⟩
  case entry => rw [hread, if_pos rfl]
  case others => rw [hread, if_neg hi]

/-- The count after a return. -/
theorem sp_completion_ret (s : State) : (completion .ret s).sp.val = s.sp.val - 1 :=
  Nat.mod_eq_of_lt (by omega)

/-- Settles O30: with an address held the count goes down and the entry there is the new `pc`; with none the check raises
the error. -/
theorem returnPopsTheLastEntry : Obligations.ReturnPopsTheLastEntry := by
  intro s
  exact ⟨fun h => ⟨_, exec_ret_held h, sp_completion_ret s, rfl, rfl⟩, exec_ret_empty⟩

/-- Settles O31: the return reads the entry the call wrote, at the count the call raised by 1. -/
theorem returnComesBackBehindTheCall : Obligations.ReturnComesBackBehindTheCall := by
  intro nnn s t u hcall hsp hstack
  have hroom := sp_lt_of_exec_call hcall
  rw [eq_completion_of_exec hcall] at hsp hstack
  have hcount : u.sp.val - 1 = s.sp.val := by
    rw [hsp, sp_completion_call nnn hroom, Nat.add_sub_cancel]
  refine ⟨_, exec_ret_held (by rw [hsp, sp_completion_call nnn hroom]; omega), ?pc, ?sp, rfl⟩
  case pc =>
    calc stackRead u (u.sp.val - 1) = stackRead (completion (.call nnn) s) s.sp.val := by
          rw [hcount, stackRead_of_stack_eq hstack]
      _ = s.pc := by rw [stackRead_completion_call nnn hroom, if_pos rfl]
  case sp => exact Fin.ext ((sp_completion_ret u).trans hcount)

end Sys2Proof.Machine
end

section
/-! PROOFS. Register skips (spec/41_skip.md), the random byte (spec/42_immediate_index_random.md) and the instructions of
the ALU family that write the flag (spec/43_alu.md). -/

namespace Sys2Proof.Machine

/-- What `5xy0` does (rule R142): it completes from every state, as a skip on equality. -/
theorem exec_seReg (x y : RegIdx) (s : State) :
    exec (.seReg x y) s = .next (skipIf (readV s x == readV s y) s) := rfl

/-- What `9xy0` does (rule R143): it completes from every state, as a skip on difference. -/
theorem exec_sneReg (x y : RegIdx) (s : State) :
    exec (.sneReg x y) s = .next (skipIf (readV s x != readV s y) s) := rfl

/-- Settles O33: both are one skip on the comparison of the two registers, which are equal when `x` is `y`. -/
theorem registerSkipsCompareForEquality : Obligations.RegisterSkipsCompareForEquality := by
  intro x y s
  refine ⟨?equal, ?different, ?same, ?sameDifferent⟩
  case equal => rw [exec_seReg, skipIf_beq]
  case different => rw [exec_sneReg, skipIf_bne]
  case same => rw [exec_seReg, skipIf_beq, if_pos rfl]
  case sameDifferent => rw [exec_sneReg, skipIf_bne, if_pos rfl]

/-- What `Cxnn` does (rule R153): one draw, masked and written to one register. -/
theorem exec_rnd (x : RegIdx) (nn : Byte) (s : State) :
    exec (.rnd x nn) s = .next (countDraw (writeV s x (Config.randomByte s.draws &&& nn))) := rfl

/-- Settles O37: the register holds the draw AND the mask, whatever the draw is; a mask of zeros or of ones decides. -/
theorem randomByteIsMasked : Obligations.RandomByteIsMasked := by
  intro x nn s
  have hread : readV (countDraw (writeV s x (Config.randomByte s.draws &&& nn))) x = Config.randomByte s.draws &&& nn :=
    readV_writeV_same s x _
  refine ⟨_, exec_rnd x nn s, fun i _ => ?bits, fun hnn => ?zeros, fun hnn => ?ones, fun r hr => ?others, rfl⟩
  case bits => rw [hread, BitVec.getLsbD_and]
  case zeros => rw [hread, hnn]; exact BitVec.and_zero
  case ones => rw [hread, hnn]; exact BitVec.and_allOnes
  case others => exact readV_writeV_other s _ hr

/-! ## Result, then flag (rule R169) -/

theorem readV_flag (s : State) (x : RegIdx) (r : Byte) (f : Bool) :
    readV (writeResultThenFlag s x r f) 15 = flagByte f := readV_writeV_same _ flagReg _

theorem readV_result (s : State) {x : RegIdx} (hx : x ≠ 15) (r : Byte) (f : Bool) :
    readV (writeResultThenFlag s x r f) x = r := by
  rw [readV_writeResultThenFlag, if_neg (show x ≠ flagReg from hx), if_pos rfl]

/-- A result and a flag leave every other register and every other field as they were. -/
theorem writeResultThenFlag_changes_only (s : State) (x : RegIdx) (r : Byte) (f : Bool) :
    (∀ k, k ≠ x → k ≠ 15 → readV (writeResultThenFlag s x r f) k = readV s k) ∧
    writeResultThenFlag s x r f = { s with v := (writeResultThenFlag s x r f).v } := by
  refine ⟨fun k hx hflag => ?_, rfl⟩
  rw [readV_writeResultThenFlag, if_neg (show k ≠ flagReg from hflag), if_neg hx]

theorem flagByte_decide (p : Prop) [Decidable p] : flagByte (decide p) = if p then 1 else 0 := by
  simp only [flagByte, decide_eq_true_eq]

theorem flagByte_toNat (f : Bool) : (flagByte f).toNat = f.toNat := by
  cases f <;> rfl

theorem flagByte_cases (f : Bool) : flagByte f = 0 ∨ flagByte f = 1 := by
  cases f
  · exact .inl rfl
  · exact .inr rfl

/-- What `8xy4` does (rule R164): it completes from every state, as a result and a flag. -/
theorem exec_addReg (x y : RegIdx) (s : State) : exec (.addReg x y) s =
    .next (writeResultThenFlag s x (readV s x + readV s y) (carryOut (readV s x) (readV s y))) := rfl

/-- What `8xy5` does (rule R165): it completes from every state, as a result and a flag. -/
theorem exec_subReg (x y : RegIdx) (s : State) : exec (.subReg x y) s =
    .next (writeResultThenFlag s x (readV s x - readV s y) (strictlyGreater (readV s x) (readV s y))) := rfl

/-- What `8xy7` does (rule R167): it completes from every state, as a result and a flag. -/
theorem exec_subnReg (x y : RegIdx) (s : State) : exec (.subnReg x y) s =
    .next (writeResultThenFlag s x (readV s y - readV s x) (strictlyGreater (readV s y) (readV s x))) := rfl

/-- What `8xy6` does (rule R166): it completes from every state, as a result and a flag. -/
theorem exec_shrReg (x y : RegIdx) (s : State) : exec (.shrReg x y) s =
    .next (writeResultThenFlag s x (shiftSource s x y >>> 1) (lowBit (shiftSource s x y))) := rfl

/-- What `8xyE` does (rule R168): it completes from every state, as a result and a flag. -/
theorem exec_shlReg (x y : RegIdx) (s : State) : exec (.shlReg x y) s =
    .next (writeResultThenFlag s x (shiftSource s x y <<< 1) (highBit (shiftSource s x y))) := rfl

/-- Settles O39: the carry is written last, so it stands in `VF` for every `x`; the sum stands in `V[x]` elsewhere. -/
theorem addWritesSumThenCarry : Obligations.AddWritesSumThenCarry := by
  intro x y s
  refine ⟨_, exec_addReg x y s, ?flag, fun hx => ?sum, writeResultThenFlag_changes_only s x _ _⟩
  case flag => rw [readV_flag, carryOut, flagByte_decide]
  case sum => rw [readV_result s hx, BitVec.toNat_add]

/-- The difference of two bytes is the difference of their values modulo 256. -/
theorem sub_toNat_int (a b : Byte) : ((a - b).toNat : Int) = ((a.toNat : Int) - b.toNat) % 256 := by
  have ha := a.isLt
  have hb := b.isLt
  rw [BitVec.toNat_sub]
  omega

/-- Settles O40: the strict comparison of the pre-state operands is written last, the difference stands in `V[x]` unless
`x` is 15; `8xy7` exchanges the operands of `8xy5`. -/
theorem subtractionsWriteDifferenceThenStrictFlag : Obligations.SubtractionsWriteDifferenceThenStrictFlag := by
  intro x y s
  refine ⟨⟨_, exec_subReg x y s, ?flag, fun hx => ?difference, writeResultThenFlag_changes_only s x _ _⟩,
    ⟨_, exec_subnReg x y s, ?flagN, fun hx => ?differenceN, writeResultThenFlag_changes_only s x _ _⟩⟩
  case flag => rw [readV_flag, strictlyGreater, flagByte_decide]
  case difference => rw [readV_result s hx, sub_toNat_int]
  case flagN => rw [readV_flag, strictlyGreater, flagByte_decide]
  case differenceN => rw [readV_result s hx, sub_toNat_int]

theorem lowBit_toNat (a : Byte) : (lowBit a).toNat = a.toNat % 2 := by
  rw [lowBit, BitVec.getLsbD, Nat.testBit_zero]
  rcases Nat.mod_two_eq_zero_or_one a.toNat with h | h <;> simp [h]

theorem highBit_toNat (a : Byte) : (highBit a).toNat = a.toNat / 128 := by
  have ha := a.isLt
  rw [highBit, BitVec.getLsbD, Nat.testBit_eq_decide_div_mod_eq]
  rcases Nat.lt_or_ge a.toNat 128 with h | h
  · simp [Nat.div_eq_of_lt h]
  · simp [show a.toNat / 128 = 1 by omega]

/-- Settles O41: the bit shifted out is written last; the source is read before anything is written. -/
theorem shiftsMoveOneBitIntoTheFlag : Obligations.ShiftsMoveOneBitIntoTheFlag := by
  rintro x y s src hsrc
  have hsource : (shiftSource s x y).toNat = src := by
    rw [hsrc, shiftSource]
    exact apply_ite BitVec.toNat _ _ _
  refine ⟨⟨_, exec_shrReg x y s, ?low, fun hx => ?half, writeResultThenFlag_changes_only s x _ _⟩,
    ⟨_, exec_shlReg x y s, ?high, fun hx => ?double, writeResultThenFlag_changes_only s x _ _⟩⟩
  case low => rw [readV_flag, flagByte_toNat, lowBit_toNat, hsource]
  case half => rw [readV_result s hx, BitVec.toNat_ushiftRight, hsource, Nat.shiftRight_eq_div_pow]
  case high => rw [readV_flag, flagByte_toNat, highBit_toNat, hsource]
  case double => rw [readV_result s hx, BitVec.toNat_shiftLeft, hsource, Nat.shiftLeft_eq, Nat.mul_comm]

/-- Settles O43: all six write a flag byte to `VF` last, whatever the operands are. -/
theorem flagWritersLeaveZeroOrOne : Obligations.FlagWritersLeaveZeroOrOne := by
  intro i s t hi h
  rw [eq_completion_of_exec h]
  have flag (u : State) (f : Bool) : readV (writeV u flagReg (flagByte f)) 15 = 0 ∨
      readV (writeV u flagReg (flagByte f)) 15 = 1 := by
    rw [show (15 : RegIdx) = flagReg from rfl, readV_writeV_same]
    exact flagByte_cases f
  obtain ⟨x, y, rfl | rfl | rfl | rfl | rfl⟩ | ⟨x, y, n, rfl⟩ := hi
  all_goals exact flag _ _

end Sys2Proof.Machine
end

section
/-! PROOFS. Key skips (spec/45_keypad_timer.md) and the sprite's range check (spec/44_draw.md rule R186). -/

namespace Sys2Proof.Machine

/-- Settles O45: the check comes first and looks at `I` and the height alone. -/
theorem drawBeyondMemoryFaults : Obligations.DrawBeyondMemoryFaults :=
  fun x y _ _ => exec_drw_error x y

/-- Settles O47: with a key number in range both are one skip on the key's bit; the check raises the error above 15. -/
theorem keySkipsTestOneBit : Obligations.KeySkipsTestOneBit := by
  rintro x s k rfl
  refine ⟨fun hk => ⟨?down, ?up⟩, fun hk => ⟨exec_skp_error hk, exec_sknp_error hk⟩⟩
  case down =>
    rw [exec, execSkp, withKey_ok s hk, skipIf_eq]
    rfl
  case up =>
    rw [exec, execSknp, withKey_ok s hk, skipIf_eq, keyDown]
    cases s.keys.getLsbD (readV s x).toNat <;> rfl

end Sys2Proof.Machine
end

section
/-! PROOFS. Index and memory instructions (spec/46_index_memory.md), and the fetch of stored words (spec/20_memory.md). -/

namespace Sys2Proof.Machine

/-! ## Stored bytes -/

/-- The byte stored at an offset. -/
theorem memRead_storeBytes_at {bs : List Byte} {m : Memory} (h : Memory.wf m = true) {a i : Nat}
    (ha : a + bs.length ≤ 4096) (hi : i < bs.length) : memRead (storeBytes m a bs) (a + i) = bs.getD i 0 := by
  rw [memRead_storeBytes bs h a ha, if_pos (by omega), Nat.add_sub_cancel_left]

/-- Bytes outside the stored range are as before. -/
theorem memRead_storeBytes_outside {bs : List Byte} {m : Memory} (h : Memory.wf m = true) {a c : Nat}
    (ha : a + bs.length ≤ 4096) (hc : c < a ∨ a + bs.length ≤ c) : memRead (storeBytes m a bs) c = memRead m c := by
  rw [memRead_storeBytes bs h a ha, if_neg (by omega)]

/-- A word stored high byte first is the word read there (rules R61, R62). -/
theorem wordAt_storeBytes {m : Memory} (h : Memory.wf m = true) {a : Nat} (ha : a ≤ 4094) (w : Word) :
    wordAt (storeBytes m a [highByte w, lowByte w]) a = w := by
  have hlen : a + [highByte w, lowByte w].length ≤ 4096 := Nat.add_le_add_right ha 2
  have hhigh : memRead (storeBytes m a [highByte w, lowByte w]) a = highByte w :=
    memRead_storeBytes_at h hlen (i := 0) Nat.two_pos
  have hlow : memRead (storeBytes m a [highByte w, lowByte w]) (a + 1) = lowByte w :=
    memRead_storeBytes_at h hlen (i := 1) Nat.one_lt_two
  rw [wordAt, hhigh, hlow, joinBytes_high_low]

/-! ## `Fx1E` -/

/-- What `Fx1E` does (rule R220): it completes from every state, as a 16-bit sum into `I`. -/
theorem exec_addIndex (x : RegIdx) (s : State) :
    exec (.addIndex x) s = .next (setIndex s (s.index + zext16 (readV s x))) := rfl

/-- Extending a byte by zeros keeps its value (rule R92). -/
theorem zext16_toNat (b : Byte) : (zext16 b).toNat = b.toNat := BitVec.toNat_setWidth_of_le (by decide)

/-- Settles O50: `Fx1E` writes `I` alone, with the sum of two values modulo 65536. -/
theorem addToIndexWrapsAtSixteenBits : Obligations.AddToIndexWrapsAtSixteenBits := by
  intro x s
  refine ⟨_, exec_addIndex x s, ?_, rfl⟩
  rw [setIndex_index, BitVec.toNat_add, zext16_toNat]

/-! ## `Fx33` -/

theorem decimalDigits_toNat (b : Byte) :
    ((decimalDigits b).getD 0 0).toNat = b.toNat / 100 ∧ ((decimalDigits b).getD 1 0).toNat = b.toNat / 10 % 10 ∧
    ((decimalDigits b).getD 2 0).toNat = b.toNat % 10 := by
  have hb := b.isLt
  have digit (d : Nat) (hd : d < 256) : (BitVec.ofNat 8 d).toNat = d := by
    rw [BitVec.toNat_ofNat, Nat.mod_eq_of_lt hd]
  exact ⟨digit _ (by omega), digit _ (by omega), digit _ (by omega)⟩

/-- Settles O52: the three digits stand at `I`, `I + 1` and `I + 2`, and hundreds, tens and units make up the byte. -/
theorem decimalDigitsAreStored : Obligations.DecimalDigitsAreStored := by
  intro x s hwf
  refine ⟨fun hrange => ?stored, exec_ldBcd_error x⟩
  have hlen : s.index.toNat + (decimalDigits (readV s x)).length ≤ 4096 := by
    rw [show (decimalDigits (readV s x)).length = 3 from rfl]
    omega
  have hread (i : Nat) (hi : i < 3) :
      memRead (completion (.ldBcd x) s).mem (s.index.toNat + i) = (decimalDigits (readV s x)).getD i 0 :=
    memRead_storeBytes_at hwf hlen hi
  have h0 := hread 0 (by decide)
  have h1 := hread 1 (by decide)
  have h2 := hread 2 (by decide)
  obtain ⟨hhundreds, htens, hunits⟩ := decimalDigits_toNat (readV s x)
  have hbyte := (readV s x).isLt
  rw [Nat.add_zero] at h0
  refine ⟨_, exec_ldBcd_ok x hrange, ?sum, ?hundreds, ?tens, ?units, fun a ha => ?others, rfl⟩
  case sum =>
    rw [h0, h1, h2, hhundreds, htens, hunits]
    omega
  case hundreds => rw [h0, hhundreds]; omega
  case tens => rw [h1, htens]; omega
  case units => rw [h2, hunits]; omega
  case others => exact memRead_storeBytes_outside hwf hlen ha

/-! ## `Fx55` and `Fx65` -/

/-- `I` after a bulk copy that lies in memory: the sum does not wrap (rules R224, R225). -/
theorem advanceIndex_index_toNat {s : State} {x : RegIdx} (h : s.index.toNat + x.toNat ≤ 4095) :
    (advanceIndex s x).index.toNat = if s.quirkLoad then s.index.toNat else s.index.toNat + x.toNat + 1 := by
  rw [advanceIndex_index]
  split
  · rfl
  · have hcount : (BitVec.ofNat 16 (copyCount x)).toNat = x.toNat + 1 := by
      rw [copyCount, BitVec.toNat_ofNat]
      omega
    rw [BitVec.toNat_add, hcount]
    omega

/-- A bulk copy advances `I` and changes nothing else. -/
theorem advanceIndex_frame (s : State) (x : RegIdx) :
    advanceIndex s x = { s with index := (advanceIndex s x).index } := by
  unfold advanceIndex
  split <;> rfl

/-- The bytes a dump stores are the registers, by number. -/
theorem readRegs_getD_toNat (s : State) {n : Nat} (r : RegIdx) (h : r.toNat < n) :
    (readRegs s n).getD r.toNat 0 = readV s r := by
  rw [readRegs_getD s n r.toNat h, BitVec.ofNat_toNat, BitVec.setWidth_eq]

/-- Settles O53: the stored bytes are the registers from `V[0]`, one address each. -/
theorem registerDumpStoresUpToX : Obligations.RegisterDumpStoresUpToX := by
  intro x s hwf
  refine ⟨fun hrange => ?stored, exec_dumpRegs_error⟩
  have hlen : s.index.toNat + (readRegs s (copyCount x)).length ≤ 4096 := by
    rw [readRegs_length, copyCount]
    omega
  have hmem : (completion (.dumpRegs x) s).mem = storeBytes s.mem s.index.toNat (readRegs s (copyCount x)) :=
    advanceIndex_mem _ x
  refine ⟨_, exec_dumpRegs_ok hrange, fun r hr => ?bytes, fun a ha => ?others, ?index, ?frame⟩
  case bytes =>
    have hr' : r.toNat < copyCount x := Nat.lt_succ_of_le hr
    rw [hmem, memRead_storeBytes_at hwf hlen (by rwa [readRegs_length]), readRegs_getD_toNat s r hr']
  case others =>
    rw [hmem]
    exact memRead_storeBytes_outside hwf hlen (by rw [readRegs_length, copyCount]; omega)
  case index =>
    exact advanceIndex_index_toNat (s := { s with mem := storeBytes s.mem s.index.toNat (readRegs s (copyCount x)) }) hrange
  case frame =>
    rw [hmem]
    exact advanceIndex_frame { s with mem := storeBytes s.mem s.index.toNat (readRegs s (copyCount x)) } x

/-- A bulk write to registers changes no other field. -/
theorem writeRegs_frame (bs : List Byte) (s : State) (i : Nat) :
    writeRegs s i bs = { s with v := (writeRegs s i bs).v } := by
  induction bs generalizing s i with
  | nil => rfl
  | cons b bs ih => exact ih (writeV s (BitVec.ofNat 4 i) b) (i + 1)

/-- The registers after a load: those up to `x` hold the bytes from `I` on. -/
theorem readV_completion_loadRegs (x : RegIdx) (s : State) (r : RegIdx) :
    readV (completion (.loadRegs x) s) r =
      if r.toNat ≤ x.toNat then memRead s.mem (s.index.toNat + r.toNat) else readV s r := by
  have hx := x.isLt
  rw [completion, readV_advanceIndex, readV_writeRegs _ s 0 (by rw [loadBytes_length, copyCount]; omega),
    loadBytes_length, copyCount]
  by_cases hr : r.toNat ≤ x.toNat
  · rw [if_pos (by omega), if_pos hr, Nat.sub_zero, loadBytes_getD _ _ _ _ (by omega)]
  · rw [if_neg (by omega), if_neg hr]

/-- Settles O54: the loaded bytes are those from `I` on, one register each. -/
theorem registerLoadReadsUpToX : Obligations.RegisterLoadReadsUpToX := by
  intro x s
  refine ⟨fun hrange => ?loaded, exec_loadRegs_error⟩
  have hframe := writeRegs_frame (loadBytes s.mem s.index.toNat (copyCount x)) s 0
  refine ⟨_, exec_loadRegs_ok hrange, fun r hr => ?bytes, fun r hr => ?others, ?index, ?frame⟩
  case bytes => rw [readV_completion_loadRegs, if_pos hr]
  case others => rw [readV_completion_loadRegs, if_neg (by omega)]
  case index =>
    rw [completion, advanceIndex_index_toNat (by rwa [writeRegs_index]), writeRegs_quirkLoad, writeRegs_index]
  case frame =>
    rw [completion, advanceIndex_v]
    exact (advanceIndex_frame _ x).trans (congrArg (fun u => setIndex u _) hframe)

/-- Settles O55: the load reads the addresses the dump wrote, register by register. -/
theorem loadRestoresWhatDumpStored : Obligations.LoadRestoresWhatDumpStored := by
  intro x s t u hwf hdump hmem hindex
  have hrange := range_of_exec_dumpRegs hdump
  obtain ⟨t', hdump', hstored, -⟩ := (registerDumpStoresUpToX x s hwf).1 hrange
  cases hdump'.symm.trans hdump
  obtain ⟨v, hload, hloaded, -⟩ := (registerLoadReadsUpToX x u).1 (by rwa [hindex])
  exact ⟨v, hload, fun r hr => by rw [hloaded r hr, hmem, hindex, hstored r hr]⟩

/-! ## Stored words run -/

/-- Settles O56: the dump stored `V[0]` at the address and `V[1]` behind it, which the fetch joins high byte first. -/
theorem storedWordIsFetchedNext : Obligations.StoredWordIsFetchedNext := by
  intro x s t hwf hx hdump
  have hrange := range_of_exec_dumpRegs hdump
  obtain ⟨t', hdump', hstored, -⟩ := (registerDumpStoresUpToX x s hwf).1 hrange
  cases hdump'.symm.trans hdump
  have hhigh : memRead t.mem s.index.toNat = readV s 0 := hstored 0 (Nat.zero_le _)
  have hlow : memRead t.mem (s.index.toNat + 1) = readV s 1 := hstored 1 hx
  have hword : wordAt t.mem s.index.toNat = joinBytes (readV s 0) (readV s 1) := by rw [wordAt, hhigh, hlow]
  rw [← hword]
  exact step_eq_exec (s := { t with pc := s.index }) (show s.index.toNat ≤ 4094 by omega)

theorem placePc_le (s : State) : (placePc s).toNat ≤ 4094 := by
  unfold placePc
  split
  · decide
  · omega

/-- Settles O57: the word is placed where the fetch can read it, high byte first, so the fetch reads it back. -/
theorem placedWordRunsNext : Obligations.PlacedWordRunsNext := by
  intro s w hwf
  have hplaced : s.withFetchWord 16 w.toNat = placeWord s w := by
    rw [State.withFetchWord, Nat.mod_eq_of_lt w.isLt, BitVec.ofNat_toNat, BitVec.setWidth_eq]
  have hword : wordAt (placeWord s w).mem (placeWord s w).pc.toNat = w :=
    wordAt_storeBytes hwf (placePc_le s) w
  rw [hplaced, step_eq_exec (show (placeWord s w).pc.toNat ≤ 4094 from placePc_le s), hword]
  rfl

end Sys2Proof.Machine
end

section
/-! PROOFS. Frames (spec/10_state.md rule R41): what each operation on the state, and so each instruction, leaves as it
was. -/

namespace Sys2Proof.Machine

/-! ## Operations -/

theorem frame_refl (c : Changes) (s : State) : Frame c s s := by
  constructor <;> simp

theorem frame_setPc (s : State) (a : Word) : Frame { pc := true } s (setPc s a) := by
  constructor <;> simp [stackRead]

theorem frame_skipIf (c : Bool) (s : State) : Frame { pc := true } s (skipIf c s) := by
  constructor <;> simp [stackRead]

theorem frame_setIndex (s : State) (a : Word) : Frame { index := true } s (setIndex s a) := by
  constructor <;> simp [stackRead]

theorem frame_redraw (s : State) (fb : FrameBuffer) : Frame { screen := true } s (redraw s fb) := by
  constructor <;> simp [stackRead]

theorem frame_writeV (s : State) (x : RegIdx) (b : Byte) : Frame (oneReg x) s (writeV s x b) := by
  constructor <;> simp +contextual [oneReg, stackRead, readV_writeV]

theorem frame_writeResultThenFlag (s : State) (x : RegIdx) (r : Byte) (f : Bool) :
    Frame (regAndFlag x) s (writeResultThenFlag s x r f) := by
  constructor
  case regs => simp +contextual [regAndFlag, readV_writeResultThenFlag]
  all_goals simp [regAndFlag, writeResultThenFlag, stackRead]

theorem frame_storeBytes {s : State} (h : Memory.wf s.mem = true) {bs : List Byte}
    (hrange : s.index.toNat + bs.length ≤ 4096) :
    Frame { mem := bytesFrom s.index.toNat bs.length } s { s with mem := storeBytes s.mem s.index.toNat bs } := by
  constructor
  case mem =>
    intro a ha
    have hout : ¬(s.index.toNat ≤ a ∧ a < s.index.toNat + bs.length) := of_decide_eq_false ha
    exact memRead_storeBytes_outside h hrange (by omega)
  all_goals simp [stackRead]

/-! ## Instructions -/

theorem frame_ret (s : State) : Frame (mayChange .ret s) s (completion .ret s) := by
  constructor <;> simp [mayChange, completion, stackRead]

theorem frame_call (nnn : BitVec 12) {s : State} (h : s.sp.val < 16) :
    Frame (mayChange (.call nnn) s) s (completion (.call nnn) s) := by
  constructor
  case entry =>
    intro i hi
    rw [stackRead_completion_call nnn h, if_neg (by simpa [mayChange] using hi)]
  all_goals simp [mayChange, completion]

/-- Settles O20: the clear screen, the jumps and the no-op are one operation each; a return writes `pc` and the count, a
call the entry at the count too. -/
theorem frameOfSystemJumpCall : Obligations.FrameOfSystemJumpCall := by
  intro i s t hi h
  rw [eq_completion_of_exec h]
  rcases hi with rfl | rfl | ⟨a, rfl⟩ | ⟨a, rfl⟩ | ⟨a, rfl⟩ | ⟨a, rfl⟩
  · exact frame_redraw s fbClear
  · exact frame_ret s
  · exact frame_refl _ s
  · exact frame_setPc s _
  · exact frame_call a (sp_lt_of_exec_call h)
  · exact frame_setPc s _

theorem frame_rnd (x : RegIdx) (nn : Byte) (s : State) :
    Frame (mayChange (.rnd x nn) s) s (completion (.rnd x nn) s) := by
  constructor <;> simp +contextual [mayChange, completion, oneReg, stackRead, readV_writeV]

/-- Settles O21: a skip writes `pc`, `6xnn` and `7xnn` one register, `Cxnn` the draw counter too, `Annn` the index. -/
theorem frameOfSkipsAndImmediates : Obligations.FrameOfSkipsAndImmediates := by
  intro i s t hi h
  rw [eq_completion_of_exec h]
  rcases hi with ⟨x, nn, rfl | rfl⟩ | ⟨x, y, rfl | rfl⟩ | ⟨x, nn, rfl | rfl | rfl⟩ | ⟨a, rfl⟩
  · exact frame_skipIf _ s
  · exact frame_skipIf _ s
  · exact frame_skipIf _ s
  · exact frame_skipIf _ s
  · exact frame_writeV s x _
  · exact frame_writeV s x _
  · exact frame_rnd x nn s
  · exact frame_setIndex s _

/-- Settles O22: one register write, a result and a flag, or nothing. -/
theorem frameOfAlu : Obligations.FrameOfAlu := by
  intro i s t hi h
  rw [eq_completion_of_exec h]
  rcases hi with ⟨x, y, hi⟩ | ⟨x, y, hi⟩ | ⟨x, y, n, rfl⟩
  · obtain rfl | rfl | rfl | rfl := hi
    all_goals exact frame_writeV s x _
  · obtain rfl | rfl | rfl | rfl | rfl := hi
    all_goals exact frame_writeResultThenFlag s x _ _
  · exact frame_refl _ s

/-- Settles O23: the new frame buffer comes with the dirty flag, and one register write follows. -/
theorem frameOfDraw : Obligations.FrameOfDraw := by
  intro x y n s t h
  rw [eq_completion_of_exec h]
  constructor <;> simp +contextual [mayChange, completion, oneReg, stackRead, readV_writeV]

theorem frame_ldVxKey (x : RegIdx) (s : State) :
    Frame (mayChange (.ldVxKey x) s) s (completion (.ldVxKey x) s) := by
  rcases completion_ldVxKey x s with hc | ⟨b, hc⟩
  all_goals
    rw [hc]
    constructor <;> simp +contextual [mayChange, oneReg, stackRead, readV_writeV]

/-- Settles O24: a skip writes `pc`, `Fx07` one register, `Fx0A` one register or `pc`, the others one timer. -/
theorem frameOfKeypadTimer : Obligations.FrameOfKeypadTimer := by
  intro i s t x hi h
  rw [eq_completion_of_exec h]
  rcases hi with rfl | rfl | rfl | rfl | rfl | rfl
  · exact frame_skipIf _ s
  · exact frame_skipIf _ s
  · exact frame_writeV s x _
  · exact frame_ldVxKey x s
  · constructor <;> simp [mayChange, completion, stackRead]
  · constructor <;> simp [mayChange, completion, stackRead]

theorem frame_dumpRegs (x : RegIdx) {s : State} (hwf : Memory.wf s.mem = true)
    (hrange : s.index.toNat + x.toNat ≤ 4095) :
    Frame (mayChange (.dumpRegs x) s) s (completion (.dumpRegs x) s) := by
  have hlen : s.index.toNat + (readRegs s (copyCount x)).length ≤ 4096 := by
    rw [readRegs_length, copyCount]
    omega
  have hstore := (frame_storeBytes hwf hlen).mem
  rw [readRegs_length] at hstore
  constructor
  case mem => simpa [mayChange, completion] using hstore
  case index => simp +contextual [mayChange, completion, advanceIndex_index]
  all_goals simp [mayChange, completion, stackRead]

theorem frame_loadRegs (x : RegIdx) (s : State) :
    Frame (mayChange (.loadRegs x) s) s (completion (.loadRegs x) s) := by
  constructor
  case regs =>
    intro r hr
    have hr' : ¬ r.toNat < copyCount x := of_decide_eq_false hr
    rw [readV_completion_loadRegs, if_neg (by rw [copyCount] at hr'; omega)]
  case index => simp +contextual [mayChange, completion, advanceIndex_index]
  all_goals simp [mayChange, completion, stackRead]

/-- Settles O25: `Fx1E` and `Fx29` write the index, `Fx33` and `Fx55` store bytes from the pre-state index on, `Fx65`
writes registers; the bulk copies advance the index unless `quirkLoad`. -/
theorem frameOfIndexMemory : Obligations.FrameOfIndexMemory := by
  intro i s t x hwf hi h
  rw [eq_completion_of_exec h]
  rcases hi with rfl | rfl | rfl | rfl | rfl
  · exact frame_setIndex s _
  · exact frame_setIndex s _
  · have hrange := range_of_exec_ldBcd h
    exact frame_storeBytes hwf (bs := decimalDigits (readV s x)) (Nat.add_le_add_right hrange 1)
  · exact frame_dumpRegs x hwf (range_of_exec_dumpRegs h)
  · exact frame_loadRegs x s

end Sys2Proof.Machine
end

section
/-! PROOFS. The draw unit (spec/44_draw.md rules R180 to R188): the rows of a sprite by pixels, collisions, and drawing
twice. -/

namespace Sys2Proof.Machine

/-! ## The bits of a list of sprite rows -/

/-- The rows `ds` at column `col`, the first at row `row`, have a 1 bit for the pixel, and sprite rows at that column are
drawn. `drawnBit_eq_spriteBit` ties it to `drawnBit`. -/
def spriteBit (col row : Nat) (ds : List Byte) (r c : Nat) : Bool :=
  decide (col ≤ 56) && decide (row ≤ r ∧ r < row + ds.length) && decide (col ≤ c ∧ c < col + 8) &&
  (ds.getD (r - row) 0).getLsbD (7 - (c - col))

theorem spriteBit_eq_true_iff (col row : Nat) (ds : List Byte) (r c : Nat) :
    spriteBit col row ds r c = true ↔ col ≤ 56 ∧ (row ≤ r ∧ r < row + ds.length) ∧ (col ≤ c ∧ c < col + 8) ∧
      (ds.getD (r - row) 0).getLsbD (7 - (c - col)) = true := by
  simp only [spriteBit, Bool.and_eq_true, decide_eq_true_eq, and_assoc]

theorem spriteBit_outside {col row : Nat} {ds : List Byte} {r : Nat} (h : ¬(row ≤ r ∧ r < row + ds.length)) (c : Nat) :
    spriteBit col row ds r c = false := by
  rw [spriteBit, decide_eq_false h, Bool.and_false, Bool.false_and, Bool.false_and]

/-- On its own row the first sprite row has the bit, on the others the rows below have it. -/
theorem spriteBit_cons_self (col row : Nat) (d : Byte) (ds : List Byte) (c : Nat) :
    spriteBit col row (d :: ds) row c = spriteBit col row [d] row c := by
  simp [spriteBit]

theorem spriteBit_cons_of_ne {row r : Nat} (h : r ≠ row) (col : Nat) (d : Byte) (ds : List Byte) (c : Nat) :
    spriteBit col row (d :: ds) r c = spriteBit col (row + 1) ds r c := by
  by_cases hr : row + 1 ≤ r ∧ r < row + 1 + ds.length
  · obtain ⟨k, rfl⟩ : ∃ k, r = row + 1 + k := ⟨r - (row + 1), by omega⟩
    have hk : k < ds.length := by omega
    simp [spriteBit, show row + 1 + k - row = k + 1 by omega, hk, show row ≤ row + 1 + k by omega,
      show row + 1 + k < row + (ds.length + 1) by omega]
  · rw [spriteBit_outside hr, spriteBit_outside (by rw [List.length_cons]; omega)]

/-- A pixel has the bit of the first row or of the rows below, never of both. -/
theorem spriteBit_cons (col row : Nat) (d : Byte) (ds : List Byte) (r c : Nat) :
    spriteBit col row (d :: ds) r c = (spriteBit col row [d] r c ^^ spriteBit col (row + 1) ds r c) := by
  by_cases hr : r = row
  · subst hr
    rw [spriteBit_cons_self, spriteBit_outside (row := r + 1) (by omega), Bool.xor_false]
  · rw [spriteBit_cons_of_ne hr, spriteBit_outside (ds := [d]) (by rw [List.length_singleton]; omega), Bool.false_xor]

/-! ## Pixels -/

/-- One sprite row by pixels, drawn or skipped. -/
theorem pixel_drawRow_spriteBit (fb : FrameBuffer) (col row : Nat) (d : Byte) {r : Nat} (hr : r < 32) (c : Nat) :
    pixel (drawRow fb col row d).1 r c = (pixel fb r c ^^ spriteBit col row [d] r c) := by
  by_cases hskip : 31 < row ∨ 56 < col
  · have hbit : spriteBit col row [d] r c = false := by
      rw [← Bool.not_eq_true, spriteBit_eq_true_iff]
      rintro ⟨hcol, hrow, -⟩
      omega
    rw [drawRow_skipped fb hskip, hbit, Bool.xor_false]
  · rw [pixel_drawRow fb (by omega) (by omega)]
    split
    · next h =>
      obtain ⟨rfl, hc⟩ := h
      simp [spriteBit, hc, show col ≤ 56 by omega]
    · next h =>
      have hbit : spriteBit col row [d] r c = false := by
        rw [← Bool.not_eq_true, spriteBit_eq_true_iff, List.length_singleton]
        rintro ⟨-, hrow, hc, -⟩
        exact h ⟨by omega, hc⟩
      rw [hbit, Bool.xor_false]

/-- The rows of a sprite XOR its bits into the screen (rule R188). -/
theorem pixel_drawRows (ds : List Byte) (fb : FrameBuffer) (col row : Nat) {r : Nat} (hr : r < 32) (c : Nat) :
    pixel (drawRows fb col row ds).1 r c = (pixel fb r c ^^ spriteBit col row ds r c) := by
  induction ds generalizing fb row with
  | nil => rw [spriteBit_outside (by rw [List.length_nil]; omega), Bool.xor_false]; rfl
  | cons d ds ih =>
    calc pixel (drawRows fb col row (d :: ds)).1 r c
        = (pixel (drawRow fb col row d).1 r c ^^ spriteBit col (row + 1) ds r c) := ih _ _
      _ = (pixel fb r c ^^ (spriteBit col row [d] r c ^^ spriteBit col (row + 1) ds r c)) := by
          rw [pixel_drawRow_spriteBit fb col row d hr, Bool.xor_assoc]
      _ = (pixel fb r c ^^ spriteBit col row (d :: ds) r c) := by rw [spriteBit_cons col row d ds]

/-! ## Collisions (rule R185) -/

/-- Some 1 bit of the rows lands on a pixel of the screen that is set. -/
def Collides (fb : FrameBuffer) (col row : Nat) (ds : List Byte) : Prop :=
  ∃ r c, r < 32 ∧ c < 64 ∧ pixel fb r c = true ∧ spriteBit col row ds r c = true

theorem collides_drawRow_iff (fb : FrameBuffer) (col row : Nat) (d : Byte) :
    (drawRow fb col row d).2 = true ↔ Collides fb col row [d] := by
  by_cases hskip : 31 < row ∨ 56 < col
  · rw [drawRow_skipped fb hskip]
    refine ⟨fun h => absurd h Bool.false_ne_true, ?_⟩
    rintro ⟨r, c, hr, -, -, hbit⟩
    obtain ⟨hcol, hrow, -⟩ := (spriteBit_eq_true_iff ..).mp hbit
    omega
  · rw [collides_drawRow fb (by omega) (by omega)]
    constructor
    · rintro ⟨j, hj, hp, hd⟩
      refine ⟨row, col + j, by omega, by omega, hp, (spriteBit_eq_true_iff ..).mpr ⟨by omega, by simp, by omega, ?_⟩⟩
      simpa using hd
    · rintro ⟨r, c, -, -, hp, hbit⟩
      obtain ⟨-, hrow, hc, hd⟩ := (spriteBit_eq_true_iff ..).mp hbit
      rw [List.length_singleton] at hrow
      obtain rfl : r = row := by omega
      refine ⟨c - col, by omega, by rwa [Nat.add_sub_cancel' hc.1], ?_⟩
      simpa using hd

/-- What a row changes does not matter for the rows below it. -/
theorem collides_below_drawRow_iff (fb : FrameBuffer) (col row : Nat) (d : Byte) (ds : List Byte) :
    Collides (drawRow fb col row d).1 col (row + 1) ds ↔ Collides fb col (row + 1) ds := by
  refine exists_congr fun r => exists_congr fun c => and_congr_right fun hr => and_congr_right fun _ =>
    and_congr_left fun hbit => ?_
  obtain ⟨-, hrow, -⟩ := (spriteBit_eq_true_iff ..).mp hbit
  rw [pixel_drawRow_spriteBit fb col row d hr, spriteBit_outside (by rw [List.length_singleton]; omega), Bool.xor_false]

theorem collides_cons_iff (fb : FrameBuffer) (col row : Nat) (d : Byte) (ds : List Byte) :
    Collides fb col row (d :: ds) ↔ Collides fb col row [d] ∨ Collides fb col (row + 1) ds := by
  constructor
  · rintro ⟨r, c, hr, hc, hp, hbit⟩
    by_cases hrow : r = row
    · subst hrow
      rw [spriteBit_cons_self] at hbit
      exact .inl ⟨r, c, hr, hc, hp, hbit⟩
    · rw [spriteBit_cons_of_ne hrow] at hbit
      exact .inr ⟨r, c, hr, hc, hp, hbit⟩
  · rintro (⟨r, c, hr, hc, hp, hbit⟩ | ⟨r, c, hr, hc, hp, hbit⟩)
    all_goals
      obtain ⟨-, hrow, -⟩ := (spriteBit_eq_true_iff ..).mp hbit
      refine ⟨r, c, hr, hc, hp, ?_⟩
    · rw [List.length_singleton] at hrow
      obtain rfl : r = row := by omega
      rwa [spriteBit_cons_self]
    · rwa [spriteBit_cons_of_ne (by omega)]

/-- The rows of a sprite report a collision exactly when one of their bits lands on a pixel that was set before. -/
theorem collides_drawRows_iff (ds : List Byte) (fb : FrameBuffer) (col row : Nat) :
    (drawRows fb col row ds).2 = true ↔ Collides fb col row ds := by
  induction ds generalizing fb row with
  | nil =>
    refine ⟨fun h => absurd h Bool.false_ne_true, ?_⟩
    rintro ⟨r, c, -, -, -, hbit⟩
    obtain ⟨-, hrow, -⟩ := (spriteBit_eq_true_iff ..).mp hbit
    rw [List.length_nil] at hrow
    omega
  | cons d ds ih =>
    rw [drawRows, Bool.or_eq_true, collides_drawRow_iff, ih, collides_below_drawRow_iff,
      collides_cons_iff fb col row d ds]

/-! ## `Dxyn` -/

theorem drawnBit_eq_spriteBit (s : State) (x y : RegIdx) (n : BitVec 4) (r c : Nat) :
    drawnBit s x y n r c =
      spriteBit (readV s x).toNat (readV s y).toNat (loadBytes s.mem s.index.toNat n.toNat) r c := by
  by_cases hr : (readV s y).toNat ≤ r ∧ r < (readV s y).toNat + n.toNat
  · rw [drawnBit, spriteBit, loadBytes_length, loadBytes_getD _ _ _ _ (by omega)]
  · rw [spriteBit_outside (by rwa [loadBytes_length]), drawnBit, decide_eq_false hr, Bool.and_false, Bool.false_and,
      Bool.false_and]

theorem pixel_spriteDrawing (s : State) (x y : RegIdx) (n : BitVec 4) {r : Nat} (hr : r < 32) (c : Nat) :
    pixel (spriteDrawing s x y n).1 r c = (pixel s.fb r c ^^ drawnBit s x y n r c) := by
  rw [spriteDrawing, pixel_drawRows _ _ _ _ hr, drawnBit_eq_spriteBit]

/-- The drawing collides exactly when a drawn 1 bit lands on a set pixel. -/
theorem collision_spriteDrawing_iff (s : State) (x y : RegIdx) (n : BitVec 4) :
    (spriteDrawing s x y n).2 = true ↔
      ∃ r c, r < 32 ∧ c < 64 ∧ pixel s.fb r c = true ∧ drawnBit s x y n r c = true := by
  simp only [spriteDrawing, collides_drawRows_iff, Collides, drawnBit_eq_spriteBit]

theorem readV_flag_completion_drw (s : State) (x y : RegIdx) (n : BitVec 4) :
    readV (completion (.drw x y n) s) 15 = flagByte (spriteDrawing s x y n).2 := readV_writeV_same _ flagReg _

/-- Settles O44: the rows XOR their bits one after another, on rows of the screen that are apart, so pixels and collisions
are those of the whole sprite; the flag is the last write. -/
theorem drawXorsTheSpritePixelByPixel : Obligations.DrawXorsTheSpritePixelByPixel := by
  intro x y n s hrange
  refine ⟨_, exec_drw_ok x y hrange, rfl, fun r c hr _ => pixel_spriteDrawing s x y n hr c, fun h => ?collides,
    fun h => ?clear, fun r hr => ?others, rfl⟩
  case collides =>
    rw [readV_flag_completion_drw, (collision_spriteDrawing_iff s x y n).mpr h]
    rfl
  case clear =>
    rw [readV_flag_completion_drw, Bool.eq_false_iff.mpr (mt (collision_spriteDrawing_iff s x y n).mp h)]
    rfl
  case others => exact readV_writeV_other _ _ hr

/-- The sprite depends on the two coordinates, `I` and memory alone. -/
theorem drawnBit_congr {s t : State} {x y : RegIdx} (hx : readV t x = readV s x) (hy : readV t y = readV s y)
    (hindex : t.index = s.index) (hmem : t.mem = s.mem) (n : BitVec 4) (r c : Nat) :
    drawnBit t x y n r c = drawnBit s x y n r c := by
  rw [drawnBit, drawnBit, hx, hy, hindex, hmem]

theorem range_of_exec_drw {x y : RegIdx} {n : BitVec 4} {s t : State} (h : exec (.drw x y n) s = .next t) :
    n.toNat = 0 ∨ s.index.toNat + n.toNat - 1 ≤ 4095 := by
  by_contra hrange
  rw [exec_drw_error x y (by omega) (by omega)] at h
  cases h

/-- Settles O46: the second draw sees the same sprite, so its XOR undoes the first; it lands on a set pixel exactly where
the first turned one on. -/
theorem drawingTwiceRestoresTheScreen : Obligations.DrawingTwiceRestoresTheScreen := by
  intro x y n s t hx hy hfirst
  have hrange := range_of_exec_drw hfirst
  obtain ⟨t', hfirst', -, hpixel, -, -, hregs, hframe⟩ := drawXorsTheSpritePixelByPixel x y n s hrange
  cases hfirst'.symm.trans hfirst
  have hindex : t.index = s.index := by rw [hframe]
  have hmem : t.mem = s.mem := by rw [hframe]
  have hsprite := drawnBit_congr (hregs x hx) (hregs y hy) hindex hmem n
  obtain ⟨u, hsecond, -, hpixel', hset, hclear, -⟩ := drawXorsTheSpritePixelByPixel x y n t (by rwa [hindex])
  refine ⟨u, hsecond, fb_ext_pixel fun r c hr hc => ?screen, ?flag⟩
  case screen => rw [hpixel' r c hr hc, hpixel r c hr hc, hsprite, Bool.xor_assoc, Bool.xor_self, Bool.xor_false]
  case flag =>
    have hwhere : (∃ r c, r < 32 ∧ c < 64 ∧ pixel t.fb r c = true ∧ drawnBit t x y n r c = true) ↔
        ∃ r c, r < 32 ∧ c < 64 ∧ pixel s.fb r c = false ∧ drawnBit s x y n r c = true := by
      refine exists_congr fun r => exists_congr fun c => and_congr_right fun hr => and_congr_right fun hc => ?_
      rw [hsprite, hpixel r c hr hc]
      refine and_congr_left fun hbit => ?_
      rw [hbit, Bool.xor_true, Bool.not_eq_true']
    rw [← hwhere]
    refine ⟨fun h => ?_, hset⟩
    by_contra hnone
    rw [hclear hnone] at h
    exact absurd h (by decide)

end Sys2Proof.Machine
end
